-- ==== Sys2Proof/Word.lean ====
section
/-! DEFINITION. The word and byte types of the block. -/

namespace Sys2Proof

/-- A storage, command or response word: a 32-bit unsigned value, bit 31 the most significant
(00_scope.md R9; R52 for the streams). -/
abbrev Word := BitVec 32

/-- A byte of the byte view (20_memory.md R34). -/
abbrev Byte := BitVec 8

end Sys2Proof
end

