-- ==== Sys2Proof/Syntax.lean ====
section
/-! DEFINITION. The six commands, one constructor for each row of spec/opcode_table.json. -/

namespace Sys2Proof

/-- A legal command (30_encoding.md R56) with its operands as the packet carries them (R58 to R60). A header that is
no legal command is a verdict of the decoder (R69), not a command. -/
inductive Instr where
  /-- INIT (R72). -/
  | init
  /-- GETBIT (R74); `index` is the operand word `o1` (R60). -/
  | getbit (index : Word)
  /-- GETBYTES (R77). -/
  | getbytes
  /-- APPEND (R82); `len` is the header's `a` field, `value` the operand word `o1` (R58). -/
  | append (len : BitVec 24) (value : Word)
  /-- APPENDW (R93); `len` is `o1`, `values` the source words; the header's `a` field `count` is their number (R59). -/
  | appendw (len : Word) (values : List Word)
  /-- LENGTH (R80). -/
  | length
deriving DecidableEq, Repr

end Sys2Proof
end

