-- ==== Sys2Proof/Config.lean ====
section
/-! DEFINITION. The parameters of the block: the constants the source fixes (R6), the packet constants (R8) and
the one open parameter `MAXLEN` (R7). -/

namespace Sys2Proof

/-- Words of capacity at construction (R6, `CAP0`). -/
@[simp] def CAP0 : Nat := 64

/-- The greatest `len` of the single-word append (R6, `LMAX1`). -/
@[simp] def LMAX1 : Nat := 31

/-- The most source words in one APPENDW packet (R8, `COUNTMAX`). -/
@[simp] def COUNTMAX : Nat := 2 ^ 24 - 1

/-- One instance of the block. `MAXLEN` is "a named parameter of the model" (R7), not state (R31). -/
structure Config where
  /-- The maximum bit length `MAXLEN` (R7). -/
  maxLen : Nat
deriving DecidableEq, Repr

/-- The range R7 gives `MAXLEN`: `1 <= MAXLEN <= 2^32 - 1`. -/
abbrev Config.legal (c : Config) : Prop := 1 ≤ c.maxLen ∧ c.maxLen ≤ 2 ^ 32 - 1

/-- The instance with the spec's default `MAXLEN = 2^31 - 1` (R7), the one `exec` and `step` run. Log entry 4. -/
def Config.std : Config := { maxLen := 2147483647 }

/-- `PHYS` (R8): the smallest power of two that is at least `max(64, ceil(MAXLEN/32))`. -/
def Config.phys (c : Config) : Nat := 2 ^ Nat.clog 2 (max 64 ((c.maxLen + 31) / 32))

end Sys2Proof
end

