-- ==== Sys2Proof/WellFormed.lean ====
section
/-! DEFINITION. Which commands a packet can carry. -/

namespace Sys2Proof

/-- A command has an encoding exactly when its source words can be counted in the 24-bit `a` field: `count` is in
`0 .. COUNTMAX` (R59). Every other operand fills its field and every value of it is encodable: an out-of-range
`len`, `value` or `index` is a legal encoding, answered with an error (R58, R60). -/
def Instr.wf : Instr → Bool
  | .init => true
  | .getbit _ => true
  | .getbytes => true
  | .append _ _ => true
  | .appendw _ values => decide (values.length ≤ COUNTMAX)
  | .length => true

end Sys2Proof
end

