-- ==== Sys2Proof/Decode.lean ====
section
/-! DEFINITION. The command-stream decoder (30_encoding.md R53 to R69), total on any sequence of words, and the
encoder. -/

namespace Sys2Proof

/-! ## Opcodes and header fields -/

/-- Opcode of INIT (R56). -/
def opInit : BitVec 8 := 0x01
/-- Opcode of GETBIT (R56). -/
def opGetbit : BitVec 8 := 0x02
/-- Opcode of GETBYTES (R56). -/
def opGetbytes : BitVec 8 := 0x03
/-- Opcode of APPEND (R56). -/
def opAppend : BitVec 8 := 0x04
/-- Opcode of APPENDW (R56). -/
def opAppendw : BitVec 8 := 0x05
/-- Opcode of LENGTH (R56). -/
def opLength : BitVec 8 := 0x06

/-- The opcode of a command (R56). -/
def opcode : Instr → BitVec 8
  | .init => opInit
  | .getbit _ => opGetbit
  | .getbytes => opGetbytes
  | .append _ _ => opAppend
  | .appendw _ _ => opAppendw
  | .length => opLength

/-- Field `op`, bits `h[31:24]` of a header (R53). -/
def headerOp (h : Word) : BitVec 8 := h.extractLsb' 24 8

/-- Field `a`, bits `h[23:0]` of a header (R53). -/
def headerArg (h : Word) : BitVec 24 := h.extractLsb' 0 24

/-- The header with these two fields (R53). -/
def header (op : BitVec 8) (a : BitVec 24) : Word := op ++ a

/-- `packetWords(h)` (R57): the length of a packet, told from its header alone. -/
def packetWords (h : Word) : Nat :=
  if headerOp h = 0x02 ∨ headerOp h = 0x04 then 2
  else if headerOp h = 0x05 then 2 + (headerArg h).toNat
  else 1

/-! ## The decoder -/

/-- Why a complete packet is no legal command. -/
inductive Illegal where
  /-- `op` is `0x00` or `0x07 .. 0xFF` (R66). -/
  | reservedOpcode
  /-- `a != 0` where it must be 0 (R67). -/
  | nonzeroArgument
deriving DecidableEq, Repr

/-- What the decoder reads at the front of the command stream. -/
inductive Decoded where
  /-- Fewer words than `packetWords(h)` have arrived (R61); also: no header yet. -/
  | incomplete
  /-- A complete illegal packet with this opcode, and the words after it (R66, R67). -/
  | illegal (op : BitVec 8) (why : Illegal) (rest : List Word)
  /-- A complete legal command, and the words after it. -/
  | command (i : Instr) (rest : List Word)
deriving DecidableEq, Repr

/-- A command whose `a` field must be 0 (R67). -/
def ifNoArgument (h : Word) (i : Instr) (rest : List Word) : Decoded :=
  if headerArg h = 0 then .command i rest else .illegal (headerOp h) .nonzeroArgument rest

/-- Reads one packet from the front of the command stream (R54 to R61, R66, R67). An illegal GETBIT header takes its
operand word with it (R57). -/
def decode : List Word → Decoded
  | [] => .incomplete
  | h :: t =>
    if headerOp h = opInit then ifNoArgument h .init t
    else if headerOp h = opGetbit then
      match t with
      | [] => .incomplete
      | o1 :: rest => ifNoArgument h (.getbit o1) rest
    else if headerOp h = opGetbytes then ifNoArgument h .getbytes t
    else if headerOp h = opAppend then
      match t with
      | [] => .incomplete
      | o1 :: rest => .command (.append (headerArg h) o1) rest
    else if headerOp h = opAppendw then
      match t with
      | [] => .incomplete
      | o1 :: ws =>
        if ws.length < (headerArg h).toNat then .incomplete
        else .command (.appendw o1 (ws.take (headerArg h).toNat)) (ws.drop (headerArg h).toNat)
    else if headerOp h = opLength then ifNoArgument h .length t
    else .illegal (headerOp h) .reservedOpcode t

/-! ## The encoder -/

/-- The packet of a command (R55, R56, R58 to R60). -/
def encode : Instr → List Word
  | .init => [header opInit 0]
  | .getbit index => [header opGetbit 0, index]
  | .getbytes => [header opGetbytes 0]
  | .append len value => [header opAppend len, value]
  | .appendw len values => header opAppendw (BitVec.ofNat 24 values.length) :: len :: values
  | .length => [header opLength 0]

/-! ## The opcode table's words -/

/-- The first `n` 32-bit words of a number whose bit 0 is the least significant bit of the first word. -/
def wordsOf : Nat → Nat → List Word
  | 0, _ => []
  | n + 1, v => BitVec.ofNat 32 v :: wordsOf n (v / 2 ^ 32)

/-- The packet whose bits are `w`, numbered as spec/opcode_table.json numbers them; every bit above `nbits` is 0. The
command stream carries whole words, first word first (R52, R54). -/
def tableWords (nbits w : Nat) : List Word :=
  wordsOf (packetWords (BitVec.ofNat 32 (w % 2 ^ nbits))) (w % 2 ^ nbits)

/-- The instruction the decoder reads from a table word. -/
def decodeTableWord (nbits w : Nat) : Option Instr :=
  match decode (tableWords nbits w) with
  | .command i _ => some i
  | .illegal _ _ _ => none
  | .incomplete => none

end Sys2Proof
end

