-- ==== Sys2Proof/Machine/State.lean ====
section
/-! DEFINITION. The state of the block, the reasons a step can stop, and the state after reset. -/

namespace Sys2Proof.Machine

/-- The five errors of the block (60_exceptions.md R105; "exactly the five errors", 93_implementation_defined.md U11).
An error is an answer to the host, not a stop of the machine (R115). -/
inductive Err where
  /-- GETBIT with `index >= bitLength` (R106). -/
  | range
  /-- An append whose operands break a constraint (R107). -/
  | invalidArgument
  /-- GETBYTES with `bitLength mod 8 != 0` (R108). -/
  | invalidState
  /-- An append with `bitLength + len > MAXLEN` (R109). -/
  | capacityExhausted
  /-- A header that is no legal command (R110). -/
  | illegalCommand
deriving DecidableEq, Repr

/-- The reasons a step can stop. -/
inductive Fault where
  /-- Raised by `memRead` and `memWrite` for a word index `w >= cap`: `storage[w]` does not exist (R19) and the access
  has no meaning (R38, R39, U7). No state that meets the invariants reaches it. SAFE: the model stops where the spec
  gives nothing. Log entry 3. -/
  | noSuchWord (w cap : Nat)
deriving DecidableEq, Repr

/-- The reasons a step can be refused. -/
inductive Refusal where
  /-- Raised by no arm of this model; the host's interface fixes the constructor. SAFE: the model would stop. -/
  | notModelled (mnemonic : String)
deriving DecidableEq, Repr

/-- The bytes of `storage` in the byte view of R34: byte `k` is lane `k mod 4`, most significant first, of word
`k div 4`. In canonical form (`Memory.wf`) the addresses rise strictly and no listed byte is 0, since an unlisted byte
reads as 0 (R30, R43). Log entry 5. -/
abbrev Memory := List Host.Cell

/-- The state of the block: the three items of R16 and nothing else. -/
structure Buffer where
  /-- `storage` (R19), as the bytes of its words. -/
  storage : Memory
  /-- `cap` (R17), the word count of `storage`. -/
  cap : Nat
  /-- `bitLength` (R18), the count of bits written. -/
  bitLength : BitVec 32
deriving DecidableEq, Repr

/-- The constructed buffer: the state after reset and after INIT (R30). -/
def Buffer.constructed : Buffer := { storage := [], cap := CAP0, bitLength := 0 }

/-- What the host's interface steps: the block with the words at its two ports. The ports are no state of the block
(R31): `blockStep` takes a packet and the three items alone, and no meaning reads `cmd` or `rsp`. Log entry 1. -/
structure State extends Buffer where
  /-- Command-stream words received and not yet executed, oldest first (R52, R54, R122): the host's choice of
  packets and interface buffering (R31). -/
  cmd : List Word
  /-- Response-stream words sent and not yet taken by the host, oldest first (R52, R62, R122): an output, never read
  by the block (R31). -/
  rsp : List Word
deriving DecidableEq, Repr

/-- The machine right after reset: the constructed buffer (R30, R120) with both streams empty (R122). -/
def State.reset : State := { toBuffer := Buffer.constructed, cmd := [], rsp := [] }

end Sys2Proof.Machine
end

