-- ==== Sys2Proof/Machine/Flags.lean ====
section
/-! DEFINITION. The block has no flags and no condition codes (10_state.md R26): every command rule has the line
"Flags written: none". What stands in their place is the status word of a response (30_encoding.md R62, R65), computed
here. -/

namespace Sys2Proof.Machine

/-- `err` of a successful command (R65). -/
def okCode : BitVec 8 := 0

/-- The `err` field of each error (R65, R105). -/
def Err.code : Err → BitVec 8
  | .range => 1
  | .invalidArgument => 2
  | .invalidState => 3
  | .capacityExhausted => 4
  | .illegalCommand => 5

/-- The status word `r` (R62): `op` in bits `[31:24]`, 0 in `[23:8]`, `err` in `[7:0]`. -/
def statusWord (op err : BitVec 8) : Word := op ++ (0 : BitVec 16) ++ err

end Sys2Proof.Machine
end

