-- ==== Sys2Proof/Machine/Memory.lean ====
section
/-! DEFINITION. `storage` as canonical byte cells: one byte read and written, words built from bytes in one place, and
the canonical form. -/

namespace Sys2Proof.Machine

/-- What an unlisted byte reads as: 0, the value of every word at reset (R30) and of every word growth exposes
(R43). -/
def Memory.unlisted : Byte := 0

/-- The byte at byte index `a` (R34). -/
def Memory.readByte : Memory → Nat → Byte
  | [], _ => Memory.unlisted
  | c :: m, a => if c.1 = a then c.2 else Memory.readByte m a

/-- Sets the byte at byte index `a`, keeping the canonical form: a byte set to what an unlisted one reads as is not
listed. -/
def Memory.writeByte : Memory → Nat → Byte → Memory
  | [], a, b => if b = Memory.unlisted then [] else [(a, b)]
  | c :: m, a, b =>
    if c.1 < a then c :: Memory.writeByte m a b
    else if c.1 = a then (if b = Memory.unlisted then m else (a, b) :: m)
    else (if b = Memory.unlisted then c :: m else (a, b) :: c :: m)

/-- The canonical form from byte index `lo` up: addresses rise strictly and no listed byte equals an unlisted one. -/
def Memory.wfFrom : Nat → Memory → Bool
  | _, [] => true
  | lo, c :: m => decide (lo ≤ c.1) && decide (c.2 ≠ Memory.unlisted) && Memory.wfFrom (c.1 + 1) m

/-- The canonical form. -/
def Memory.wf (m : Memory) : Bool := Memory.wfFrom 0 m

/-- The word at word index `w`: its four bytes, the lowest byte index most significant (R34). -/
def Memory.readWord (m : Memory) (w : Nat) : Word :=
  m.readByte (4 * w) ++ m.readByte (4 * w + 1) ++ m.readByte (4 * w + 2) ++ m.readByte (4 * w + 3)

/-- Sets the word at word index `w`, byte by byte in the order of `Memory.readWord`. -/
def Memory.writeWord (m : Memory) (w : Nat) (v : Word) : Memory :=
  (((m.writeByte (4 * w) (v.extractLsb' 24 8)).writeByte (4 * w + 1) (v.extractLsb' 16 8)).writeByte
    (4 * w + 2) (v.extractLsb' 8 8)).writeByte (4 * w + 3) (v.extractLsb' 0 8)

/-- The bytes below byte index `n` alone; the bytes from `n` up then read as 0. -/
def Memory.below (m : Memory) (n : Nat) : Memory := m.filter fun c => decide (c.1 < n)

end Sys2Proof.Machine
end

