-- ==== Sys2Proof/Machine/Operands.lean ====
section
/-! DEFINITION. The primitives on words (00_scope.md R11), bit addressing (20_memory.md R32), the position quantities
of the appends (R85, R96), the bit list each append stands for (R84, R95) and the tests each append makes of its
operands (R83, R94). -/

namespace Sys2Proof.Machine

/-! ## Shift and mask primitives (R11) -/

/-- `shl32(v, s) = (v * 2^s) mod 2^32`. -/
def shl32 (v : Word) (s : Nat) : Word := BitVec.ofNat 32 (v.toNat * 2 ^ s)

/-- `shr(v, s) = v div 2^s`. -/
def shr (v : Word) (s : Nat) : Word := BitVec.ofNat 32 (v.toNat / 2 ^ s)

/-- `lowmask(n) = 2^n - 1`, as a word. -/
def lowmask (n : Nat) : Word := BitVec.ofNat 32 (2 ^ n - 1)

/-! ## Bit addressing (R32) -/

/-- `wordOf(i) = i div 32`. -/
def wordOf (i : Nat) : Nat := i / 32

/-- `posOf(i) = 31 - (i mod 32)`. -/
def posOf (i : Nat) : Nat := 31 - i % 32

/-- `ceil(n/32)`: the words that hold `n` bits from a word boundary on (R10, R96). -/
def wordsFor (n : Nat) : Nat := (n + 31) / 32

/-- `o = L mod 32` (R85), `s` of R96: the bits already used in the current word. -/
def used (L : Nat) : Nat := L % 32

/-- `remain = 32 - o` (R85): the free positions of the current word. -/
def remain (L : Nat) : Nat := 32 - used L

/-! ## The bit list of a run, in write order -/

/-- The bits of `APPEND value, len` (R84): `b_k = shr(value, len - 1 - k) & 1`. -/
def runBits (len : Nat) (value : Word) : List Bool :=
  (List.range len).map fun k => value.getLsbD (len - 1 - k)

/-- Source word `k` of APPENDW (R59). The tests of R94 keep every use of it below `count`; the 0 given from there on is
never used (log entry 11). -/
def sourceWord (values : List Word) (k : Nat) : Word := values.getD k 0

/-- The bits of `APPENDW len, values` (R95): `b_j = shr(values[j div 32], 31 - (j mod 32)) & 1`. -/
def sourceBits (len : Nat) (values : List Word) : List Bool :=
  (List.range len).map fun j => (sourceWord values (j / 32)).getLsbD (31 - j % 32)

/-! ## The tests of the appends -/

/-- `check(value, len, L)` (R83): the first test that fails, in the order of the rule. -/
def checkAppend (cfg : Config) (len : Nat) (value : Word) (L : Nat) : Option Err :=
  if len > LMAX1 then some .invalidArgument
  else if shr value len ≠ 0 then some .invalidArgument
  else if L + len > cfg.maxLen then some .capacityExhausted
  else none

/-- Test 2 of R94: the partial final word has a one among its unused low-order bits. -/
def dirtyTail (len : Nat) (values : List Word) : Bool :=
  decide (len % 32 ≠ 0) && decide (sourceWord values (len / 32) &&& lowmask (32 - len % 32) ≠ 0)

/-- `checkw(values, count, len, L)` (R94), with `count` the number of source words: the first test that fails, in the
order of the rule. -/
def checkAppendw (cfg : Config) (len : Nat) (values : List Word) (L : Nat) : Option Err :=
  if len > 32 * values.length then some .invalidArgument
  else if dirtyTail len values then some .invalidArgument
  else if L + len > cfg.maxLen then some .capacityExhausted
  else none

end Sys2Proof.Machine
end

