-- ==== Sys2Proof/Machine/Ops.lean ====
section
/-! DEFINITION. The named operations every command shares: updates of the state, the two word accesses (R38, R39),
growth (R42), the response (R62), taking an error (R113) and the host's moves (R122, R128). -/

namespace Sys2Proof.Machine

/-! ## Updates of one part of the state -/

/-- Replaces the contents of `storage`. -/
def State.setStorage (s : State) (m : Memory) : State := { s with storage := m }

/-- `cap <- c` (R12). -/
def State.setCap (s : State) (c : Nat) : State := { s with cap := c }

/-- `bitLength <- n` (R12), the 32-bit register of R18. An append writes at most `MAXLEN <= 2^32 - 1` (R88, R100). -/
def State.setLength (s : State) (n : Nat) : State := { s with bitLength := BitVec.ofNat 32 n }

/-- The state with these command words still to execute. -/
def State.setCmd (s : State) (ws : List Word) : State := { s with cmd := ws }

/-- Sends words on the response stream, after those sent before (R62). -/
def State.emit (s : State) (ws : List Word) : State := { s with rsp := s.rsp ++ ws }

/-- `bitLength` as the natural number the rules compute with (R10). -/
def State.len (s : State) : Nat := s.bitLength.toNat

/-- `storage[w]` of an index that exists. -/
def State.word (s : State) (w : Nat) : Word := s.storage.readWord w

/-! ## Word access -/

/-- `MemRead(w, 32)` (R38): defined for `w < cap`, changes nothing. -/
def memRead (w : Nat) (s : State) : Except Fault Word :=
  if w < s.cap then .ok (s.word w) else .error (.noSuchWord w s.cap)

/-- `MemWrite(w, 32, v)` (R39): defined for `w < cap`, changes that word alone. -/
def memWrite (w : Nat) (v : Word) (s : State) : Except Fault State :=
  if w < s.cap then .ok (s.setStorage (s.storage.writeWord w v)) else .error (.noSuchWord w s.cap)

/-! ## Growth -/

/-- One doubling of `cap`; the words it exposes, `old cap .. new cap - 1`, are 0 (R42, R43). Log entry 8. -/
def double (s : State) : State :=
  (s.setStorage (s.storage.below (4 * s.cap))).setCap (s.cap * 2)

/-- The loop of R42, run at most `fuel` times. -/
def growLoop : Nat → Nat → State → State
  | 0, _, s => s
  | fuel + 1, need, s => if s.cap * 32 < need then growLoop fuel need (double s) else s

/-- `Grow(need)` (R42). `need` doublings are more than the loop can use from any `cap >= 1`. Log entry 7. -/
def grow (need : Nat) (s : State) : State := growLoop need need s

/-! ## Responses and errors -/

/-- `respond(payload)` (R12, R62): status OK, then the payload. -/
def respond (op : BitVec 8) (payload : List Word) (s : State) : State :=
  s.emit (statusWord op okCode :: payload)

/-- `raise E` (R113), the one way every error is taken: nothing of the buffer changes, one status word with the
opcode of the failed command and the code of the error is sent, no payload; nothing is saved and there is nothing to
return from (R111, R115). -/
def raiseError (op : BitVec 8) (e : Err) (s : State) : State :=
  s.emit [statusWord op e.code]

/-- The answer to an illegal packet (R66, R67, R110). -/
def answerIllegal (op : BitVec 8) (s : State) : Host.Outcome State Fault Refusal :=
  .next (raiseError op .illegalCommand s)

/-- Ends a command whose word accesses may have met a word that does not exist: the state they leave goes on to
`finish`. -/
def completing (r : Except Fault State) (finish : State → State) : Host.Outcome State Fault Refusal :=
  match r with
  | .ok s => .next (finish s)
  | .error f => .fault f

/-! ## The host's moves (R122, R124, R128) -/

/-- The host sends words on the command stream (R54, R128). -/
def State.deliver (s : State) (ws : List Word) : State := s.setCmd (s.cmd ++ ws)

/-- The host takes the response words sent so far; once taken they are the host's (R49). -/
def State.collect (s : State) : List Word × State := (s.rsp, { s with rsp := [] })

/-- The host asserts reset: the reset state, whatever came before (R120, R122, R124). Log entry 9. -/
def State.assertReset (_ : State) : State := State.reset

end Sys2Proof.Machine
end

