-- ==== Sys2Proof/Machine/Append.lean ====
section
/-! DEFINITION. The single-word append: APPEND (42_append_single.md). -/

namespace Sys2Proof.Machine

/-- `merge(value, len, L)` (R87): the run goes into the current word and, when it crosses a word boundary, into the
next. -/
def merge (value : Word) (len L : Nat) (s : State) : Except Fault State :=
  if len ≤ remain L then do
    let cur ← memRead (wordOf L) s
    memWrite (wordOf L) (cur ||| shl32 value (remain L - len)) s
  else do
    let cur ← memRead (wordOf L) s
    let s ← memWrite (wordOf L) (cur ||| shr value (len - remain L)) s
    memWrite (wordOf L + 1) (shl32 value (32 - (len - remain L))) s

/-- APPEND on the instance `cfg` (R82 to R88), for any `MAXLEN` (R7). -/
def appendUnder (cfg : Config) (len : BitVec 24) (value : Word) (s : State) : Host.Outcome State Fault Refusal :=
  match checkAppend cfg len.toNat value s.len with
  | some e => .next (raiseError opAppend e s)
  | none =>
    if len.toNat = 0 then .next (respond opAppend [] s)
    else
      completing (merge value len.toNat s.len (grow (s.len + len.toNat) s)) fun t =>
        respond opAppend [] (t.setLength (s.len + len.toNat))

/-- APPEND (R82) with the default `MAXLEN` (R7; log entry 4). -/
def execAppend (len : BitVec 24) (value : Word) (s : State) : Host.Outcome State Fault Refusal :=
  appendUnder Config.std len value s

end Sys2Proof.Machine
end

