-- ==== Sys2Proof/Machine/Bulk.lean ====
section
/-! DEFINITION. The bulk append from whole words: APPENDW (43_append_bulk.md). -/

namespace Sys2Proof.Machine

/-- The loop of `fastcopy` (R98): the words one after the other from word index `w` on. -/
def copyWords : List Word → Nat → State → Except Fault State
  | [], _, s => pure s
  | v :: vs, w, s => do
    let s ← memWrite w v s
    copyWords vs (w + 1) s

/-- `fastcopy(values, len, L)` (R98): the `ceil(len/32)` source words used, copied whole. -/
def fastcopy (values : List Word) (len L : Nat) (s : State) : Except Fault State :=
  copyWords (values.take (wordsFor len)) (wordOf L) s

/-- The loop of `shiftmerge` (R99) with `sh` bits used in the current word: each whole source word is split between
word `w` and the next; the read of the next turn sees what this one wrote (R135). -/
def shiftWords (sh : Nat) : List Word → Nat → State → Except Fault State
  | [], _, s => pure s
  | v :: vs, w, s => do
    let cur ← memRead w s
    let s ← memWrite w (cur ||| shr v sh) s
    let s ← memWrite (w + 1) (shl32 v (32 - sh)) s
    shiftWords sh vs (w + 1) s

/-- `shiftmerge(values, len, L)` (R99): the whole source words, then the `rem` used bits of the partial final word by
`merge`. -/
def shiftmerge (values : List Word) (len L : Nat) (s : State) : Except Fault State := do
  let s ← shiftWords (used L) (values.take (len / 32)) (wordOf L) s
  if len % 32 = 0 then pure s
  else merge (shr (sourceWord values (len / 32)) (32 - len % 32)) (len % 32) (L + 32 * (len / 32)) s

/-- APPENDW on the instance `cfg` (R93 to R100), for any `MAXLEN` (R7). -/
def appendwUnder (cfg : Config) (len : Word) (values : List Word) (s : State) : Host.Outcome State Fault Refusal :=
  match checkAppendw cfg len.toNat values s.len with
  | some e => .next (raiseError opAppendw e s)
  | none =>
    if len.toNat = 0 then .next (respond opAppendw [] s)
    else
      completing
        (if used s.len = 0 then fastcopy values len.toNat s.len (grow (s.len + len.toNat) s)
         else shiftmerge values len.toNat s.len (grow (s.len + len.toNat) s))
        fun t => respond opAppendw [] (t.setLength (s.len + len.toNat))

/-- APPENDW (R93) with the default `MAXLEN` (R7; log entry 4). -/
def execAppendw (len : Word) (values : List Word) (s : State) : Host.Outcome State Fault Refusal :=
  appendwUnder Config.std len values s

end Sys2Proof.Machine
end

