-- ==== Sys2Proof/Machine/Construct.lean ====
section
/-! DEFINITION. Construction: INIT (40_construct.md). -/

namespace Sys2Proof.Machine

/-- The constructed buffer of R30; the streams are as they were. In the canonical form of `storage`, 64 zero words are
the empty list, and the words beyond `cap` hold nothing that a later growth could expose (R72, R43; log entry 8). -/
def construct (s : State) : State := { s with toBuffer := Buffer.constructed }

/-- INIT (R72, R73). Its one error, `a != 0`, is the decoder's verdict (R67). -/
def execInit (s : State) : Host.Outcome State Fault Refusal :=
  .next (respond opInit [] (construct s))

end Sys2Proof.Machine
end

