-- ==== Sys2Proof/Machine/Reads.lean ====
section
/-! DEFINITION. The reads: GETBIT, GETBYTES, LENGTH (41_read.md). Their error `a != 0` is the decoder's verdict
(R67). -/

namespace Sys2Proof.Machine

/-! ## GETBIT -/

/-- GETBIT (R74). -/
def execGetbit (index : Word) (s : State) : Host.Outcome State Fault Refusal :=
  if index.toNat < s.len then
    match memRead (wordOf index.toNat) s with
    | .ok v => .next (respond opGetbit [shr v (posOf index.toNat) &&& 1] s)
    | .error f => .fault f
  else .next (raiseError opGetbit .range s)

/-! ## GETBYTES -/

/-- `B_k` (R77): byte `k` cut out of its word. -/
def readStreamByte (k : Nat) (s : State) : Except Fault Byte := do
  let v ← memRead (k / 4) s
  pure ((shr v (24 - 8 * (k % 4))).setWidth 8)

/-- The loop of R77 from byte `k` on: `n` bytes. -/
def readStreamBytes : Nat → Nat → State → Except Fault (List Byte)
  | 0, _, _ => pure []
  | n + 1, k, s => do
    let b ← readStreamByte k s
    let bs ← readStreamBytes n (k + 1) s
    pure (b :: bs)

/-- The payload packing of R64: four bytes to a word, the first most significant, unused lanes of the last word 0. -/
def packBytes : List Byte → List Word
  | [] => []
  | [b0] => [b0 ++ (0 : Byte) ++ (0 : Byte) ++ (0 : Byte)]
  | [b0, b1] => [b0 ++ b1 ++ (0 : Byte) ++ (0 : Byte)]
  | [b0, b1, b2] => [b0 ++ b1 ++ b2 ++ (0 : Byte)]
  | b0 :: b1 :: b2 :: b3 :: rest => (b0 ++ b1 ++ b2 ++ b3) :: packBytes rest

/-- GETBYTES (R77, R64). -/
def execGetbytes (s : State) : Host.Outcome State Fault Refusal :=
  if s.len % 8 = 0 then
    match readStreamBytes (s.len / 8) 0 s with
    | .ok bytes => .next (respond opGetbytes (BitVec.ofNat 32 (s.len / 8) :: packBytes bytes) s)
    | .error f => .fault f
  else .next (raiseError opGetbytes .invalidState s)

/-! ## LENGTH -/

/-- LENGTH (R80). -/
def execLength (s : State) : Host.Outcome State Fault Refusal :=
  .next (respond opLength [s.bitLength] s)

end Sys2Proof.Machine
end

