-- ==== Sys2Proof/Machine/Dispatch.lean ====
section
/-! DEFINITION. One arm for each command. -/

namespace Sys2Proof.Machine

/-- The meaning of a command. -/
def exec (i : Instr) (s : State) : Host.Outcome State Fault Refusal :=
  match i with
  | .init => Sys2Proof.Machine.execInit s
  | .getbit index => Sys2Proof.Machine.execGetbit index s
  | .getbytes => Sys2Proof.Machine.execGetbytes s
  | .append len value => Sys2Proof.Machine.execAppend len value s
  | .appendw len values => Sys2Proof.Machine.execAppendw len values s
  | .length => Sys2Proof.Machine.execLength s

end Sys2Proof.Machine
end

