-- ==== Sys2Proof/Machine/Fetch.lean ====
section
/-! DEFINITION. Fetching: the next packet of the command stream, taken whole (R13); and the block on any instance, for
every `MAXLEN` (R7). -/

namespace Sys2Proof.Machine

/-- Takes the next packet off the command stream and runs it by `run` (R46, R54); answers an illegal packet (R66, R67);
waits, nothing changed, while no complete packet has arrived (R61, R118; log entry 2). -/
def stepWith (run : Instr → State → Host.Outcome State Fault Refusal) (s : State) :
    Host.Outcome State Fault Refusal :=
  match decode s.cmd with
  | .incomplete => .next s
  | .illegal op _ rest => answerIllegal op (s.setCmd rest)
  | .command i rest => run i (s.setCmd rest)

/-- The meaning of a command on the instance `cfg`: `MAXLEN` shows in the two appends alone (R109). -/
def execUnder (cfg : Config) (i : Instr) (s : State) : Host.Outcome State Fault Refusal :=
  match i with
  | .init => execInit s
  | .getbit index => execGetbit index s
  | .getbytes => execGetbytes s
  | .append len value => appendUnder cfg len value s
  | .appendw len values => appendwUnder cfg len values s
  | .length => execLength s

/-- One step of the block on the instance `cfg` (R7). -/
def stepUnder (cfg : Config) (s : State) : Host.Outcome State Fault Refusal := stepWith (execUnder cfg) s

end Sys2Proof.Machine
end

