-- ==== Sys2Proof/Machine/Step.lean ====
section
/-! DEFINITION. One step, and where the host's question places an instruction. -/

namespace Sys2Proof.Machine

/-- One step of the block with the default `MAXLEN` (R7; log entry 4). -/
def step (s : State) : Host.Outcome State Fault Refusal := stepWith exec s

/-- `s` with the packet whose table bits are `w` next on the command stream, before any words still waiting. -/
def State.withFetchWord (s : State) (nbits w : Nat) : State := s.setCmd (tableWords nbits w ++ s.cmd)

end Sys2Proof.Machine
end

