-- ==== Sys2Proof/Machine/Block.lean ====
section
/-! DEFINITION. The block by itself: its step on whole packets, over the three items of R16 alone. The command stream and
the response stream are no state of it (R31); `atPorts` puts them back around it. -/

namespace Sys2Proof.Machine

/-- A packet taken whole (R13, R31): a legal command, or an illegal packet with its opcode (R69). -/
inductive Packet where
  /-- A legal command (R56). -/
  | command (i : Instr)
  /-- An illegal packet (R66, R67). -/
  | illegal (op : BitVec 8)
deriving DecidableEq, Repr

/-- The packet these words are, where they are one complete packet and nothing more (R54, R57, R69). -/
def packetOf (ws : List Word) : Option Packet :=
  match decode ws with
  | .command i [] => some (.command i)
  | .illegal op _ [] => some (.illegal op)
  | .command _ (_ :: _) => none
  | .illegal _ _ (_ :: _) => none
  | .incomplete => none

/-- The block with nothing at its ports. -/
def Buffer.alone (b : Buffer) : State := { toBuffer := b, cmd := [], rsp := [] }

/-- What an outcome leaves of the block, and the words it answered. -/
def answered : Host.Outcome State Fault Refusal → Host.Outcome (Buffer × List Word) Fault Refusal
  | .next t => .next (t.toBuffer, t.rsp)
  | .fault f => .fault f
  | .refused r => .refused r

/-- The step relation of the block (R13, R16, R31): from the three items and one whole packet, the three items after it
and the response packet; `MAXLEN` is its parameter. -/
def blockStep (cfg : Config) (p : Packet) (b : Buffer) : Host.Outcome (Buffer × List Word) Fault Refusal :=
  match p with
  | .command i => answered (execUnder cfg i b.alone)
  | .illegal op => answered (answerIllegal op b.alone)

/-- A run (R127): a finite list of packets applied to a buffer; its result is the final state and the list of response
packets, one per packet in order. -/
def blockRun (cfg : Config) : List Packet → Buffer → Host.Outcome (Buffer × List (List Word)) Fault Refusal
  | [], b => .next (b, [])
  | p :: ps, b =>
    match blockStep cfg p b with
    | .next (c, r) =>
      match blockRun cfg ps c with
      | .next (d, rs) => .next (d, r :: rs)
      | .fault f => .fault f
      | .refused e => .refused e
    | .fault f => .fault f
    | .refused e => .refused e

/-- A step of the block seen with the ports of `s`: the command words stay, the answer goes after the words sent
before (R62). -/
def atPorts (s : State) : Host.Outcome (Buffer × List Word) Fault Refusal → Host.Outcome State Fault Refusal
  | .next (b, ws) => .next { toBuffer := b, cmd := s.cmd, rsp := s.rsp ++ ws }
  | .fault f => .fault f
  | .refused e => .refused e

end Sys2Proof.Machine
end

