-- ==== Sys2Proof/Machine/Reference.lean ====
section
/-! DEFINITION. What the datapath is held to: the bit at a stream index (R33), the byte view (R34) and the per-bit
reference meaning of an append (R40, R41). No command runs these; the append rules must equal them. -/

namespace Sys2Proof.Machine

/-- `bitAt(S, i)` (R33). -/
def bitAt (s : State) (i : Nat) : Bool := (s.word (wordOf i)).getLsbD (posOf i)

/-- `byteAt(S, k)` by its definition (R34, first line): eight consecutive bits, the first the most significant. -/
def byteAt (s : State) (k : Nat) : Nat :=
  ((List.range 8).map fun j => (bitAt s (8 * k + j)).toNat * 2 ^ (7 - j)).sum

/-- The written stream of a state (R33). -/
def written (s : State) : List Bool := (List.range s.len).map (bitAt s)

/-- Appending one bit (R40). -/
def refAppendBit (s : State) (b : Bool) : State :=
  (s.setStorage (s.storage.writeWord (wordOf s.len)
    (s.word (wordOf s.len) ||| shl32 (if b then 1 else 0) (posOf s.len)))).setLength (s.len + 1)

/-- `refAppend(S, bits)` (R41): the bits one by one, in write order. -/
def refAppend (s : State) (bits : List Bool) : State := bits.foldl refAppendBit s

/-- A list of commands on one instance, one after the other, each to its end (R46); stops at the first stop. -/
def execAll (cfg : Config) : List Instr → State → Host.Outcome State Fault Refusal
  | [], s => .next s
  | i :: is, s =>
    match execUnder cfg i s with
    | .next t => execAll cfg is t
    | .fault f => .fault f
    | .refused r => .refused r

/-- The single-word appends of R102 (b) that stand for one whole source word: its high half, then its low half. -/
def halves (v : Word) : List Instr := [.append 16 (shr v 16), .append 16 (v &&& 0xFFFF)]

/-- The single-word appends of R102 (b) that stand for `APPENDW len, values`. -/
def groupAppends (len : Nat) (values : List Word) : List Instr :=
  (values.take (len / 32)).flatMap halves ++
    (if len % 32 = 0 then []
     else [.append (BitVec.ofNat 24 (len % 32)) (shr (sourceWord values (len / 32)) (32 - len % 32))])

end Sys2Proof.Machine
end

