-- ==== Sys2Proof/Safety.lean ====
section
/-! DEFINITION. The invariants of 10_state.md section 2, and what counts as a safe step. -/

namespace Sys2Proof.Machine

/-- Invariant LEN (R20): `bitLength <= cap * 32`, and `bitLength <= MAXLEN`. -/
def InvLen (cfg : Config) (s : State) : Prop := s.len ≤ s.cap * 32 ∧ s.len ≤ cfg.maxLen

/-- Invariant ZERO-TAIL (R21): every bit at an index from `bitLength` to `cap * 32 - 1` is zero. -/
def InvZeroTail (s : State) : Prop := ∀ i, s.len ≤ i → i < s.cap * 32 → bitAt s i = false

/-- Invariant CAP (R23): `cap` is a power of two, at least 64, at most `PHYS`. -/
def InvCap (cfg : Config) (s : State) : Prop := (∃ k, s.cap = 2 ^ k) ∧ 64 ≤ s.cap ∧ s.cap ≤ cfg.phys

/-- The form of the model's memory: canonical, and no cell for a word that does not exist (R19; log entry 5). -/
def InvMemory (s : State) : Prop := s.storage.wf = true ∧ ∀ c ∈ s.storage, c.1 < 4 * s.cap

/-- What holds before and after every command: LEN, ZERO-TAIL and CAP (R20, R21, R23) and the form of the memory. -/
structure Inv (cfg : Config) (s : State) : Prop where
  len : InvLen cfg s
  tail : InvZeroTail s
  cap : InvCap cfg s
  mem : InvMemory s

/-- A safe step answers a next state: it meets no word that does not exist (R38, R39). -/
def safeStep (cfg : Config) (s : State) : Prop := ∃ t, stepUnder cfg s = .next t

end Sys2Proof.Machine
end

