-- ==== Sys2Proof/Certificates/Slice0/Obligations.lean ====
section
/-! DEFINITION. The statements for the provers, from the numbered rules of spec/. -/

open Sys2Proof Sys2Proof.Machine

/-- From every state, asserting reset gives one state, State.reset, with bitLength = 0, cap = 64 and storage[0 .. 63] all
zero. Formalises R120. -/
def Obligations.ResetIsConstructedBuffer : Prop :=
  ∀ s : State,
    s.assertReset = State.reset ∧ s.assertReset.bitLength = 0 ∧ s.assertReset.cap = 64 ∧
      ∀ w, w < 64 → s.assertReset.word w = 0

/-- From every state, after reset no command word and no response word is held, and words the host then delivers stand at
the front of the command stream. That the streams stand in State is the model's choice, log entry 1; the spec's
sentence is "Reset empties both streams as far as the block holds them". Rests on 70_reset_and_hazards.md section 1. -/
def Obligations.ResetEmptiesStreams : Prop :=
  ∀ (s : State) (ws : List Word),
    s.assertReset.cmd = [] ∧ s.assertReset.rsp = [] ∧ (s.assertReset.deliver ws).cmd = ws

/-- INIT is the one word 0x01000000. From every state exec answers a next state with bitLength = 0, cap = 64 and every
word 0, the same buffer as State.reset has; one response word 0x01000000 is sent and the command stream is as it was.
A header with opcode 0x01 and a != 0 is answered 0x01000005 and changes nothing else. Formalises R72. -/
def Obligations.InitConstructsEmptyBuffer : Prop :=
  ∀ s : State,
    encode .init = [0x01000000] ∧
    exec .init s = .next { State.reset with cmd := s.cmd, rsp := s.rsp ++ [0x01000000] } ∧
    (∀ t, exec .init s = .next t → t.bitLength = 0 ∧ t.cap = 64 ∧ ∀ w, t.word w = 0) ∧
    ∀ (a : BitVec 24) (rest : List Word), a ≠ 0 → s.cmd = header 0x01 a :: rest →
      step s = .next { s with cmd := rest, rsp := s.rsp ++ [0x01000005] }

/-- GETBIT is the words 0x02000000, index. Where bitLength <= cap*32 and index < bitLength, exec answers a next state that
differs by the response words 0x02000000 and bitAt(S, index) zero-extended; where index >= bitLength, by the one word
0x02000001 (Range). A header with opcode 0x02 and a != 0 takes its operand word, is answered 0x02000005 and changes
nothing else. Formalises R74. -/
def Obligations.GetbitReadsOneBit : Prop :=
  ∀ (s : State) (index : Word),
    encode (.getbit index) = [0x02000000, index] ∧
    (s.len ≤ s.cap * 32 → index.toNat < s.len →
      exec (.getbit index) s =
        .next { s with rsp := s.rsp ++ [0x02000000, if bitAt s index.toNat then 1 else 0] }) ∧
    (s.len ≤ index.toNat → exec (.getbit index) s = .next { s with rsp := s.rsp ++ [0x02000001] }) ∧
    ∀ (a : BitVec 24) (rest : List Word), a ≠ 0 → s.cmd = header 0x02 a :: index :: rest →
      step s = .next { s with cmd := rest, rsp := s.rsp ++ [0x02000005] }

/-- GETBYTES is the word 0x03000000. Where bitLength <= cap*32 and bitLength mod 8 = 0, exec answers a next state that
differs by the response words 0x03000000, n = bitLength/8 and the packed bytes byteAt(S, k), k < n; where bitLength
mod 8 != 0, by the one word 0x03000003 (InvalidState). A header with opcode 0x03 and a != 0 is answered 0x03000005 and
changes nothing else. Formalises R77. -/
def Obligations.GetbytesReadsWholeStream : Prop :=
  ∀ s : State,
    encode .getbytes = [0x03000000] ∧
    (s.len ≤ s.cap * 32 → s.len % 8 = 0 →
      exec .getbytes s =
        .next (s.emit (0x03000000 :: BitVec.ofNat 32 (s.len / 8) ::
          packBytes ((List.range (s.len / 8)).map fun k => BitVec.ofNat 8 (byteAt s k))))) ∧
    (s.len % 8 ≠ 0 → exec .getbytes s = .next { s with rsp := s.rsp ++ [0x03000003] }) ∧
    ∀ (a : BitVec 24) (rest : List Word), a ≠ 0 → s.cmd = header 0x03 a :: rest →
      step s = .next { s with cmd := rest, rsp := s.rsp ++ [0x03000005] }

/-- Where the invariants hold and bitLength mod 8 = 0, GETBYTES answers the count n = bitLength/8 and then exactly the
words storage[0 .. ceil(n/4) - 1]. The spec marks "this makes p_j = storage[j] for every j < m" as derived. Rests on
30_encoding.md section 3; 41_read.md section 2. -/
def Obligations.GetbytesPayloadIsStorageWords : Prop :=
  ∀ s : State, Inv Config.std s → s.len % 8 = 0 →
    exec .getbytes s =
      .next (s.emit (0x03000000 :: BitVec.ofNat 32 (s.len / 8) ::
        (List.range ((s.len / 8 + 3) / 4)).map s.word))

/-- byteAt(S, k), the sum of eight stream bits, equals shr(storage[k div 4], 24 - 8*(k mod 4)) & 0xFF, and is the byte the
model keeps at byte index k. The spec marks the second line of the byte view as derived. Rests on 20_memory.md section
1. -/
def Obligations.ByteViewIsBigEndian : Prop :=
  ∀ (s : State) (k : Nat),
    byteAt s k = (shr (s.word (k / 4)) (24 - 8 * (k % 4)) &&& 0xFF).toNat ∧
      byteAt s k = (s.storage.readByte k).toNat

/-- LENGTH is the word 0x06000000. From every state exec answers a next state that differs by the response words
0x06000000 and bitLength. A header with opcode 0x06 and a != 0 is answered 0x06000005 and changes nothing else.
Formalises R80. -/
def Obligations.LengthReadsBitLength : Prop :=
  ∀ s : State,
    encode .length = [0x06000000] ∧
    exec .length s = .next { s with rsp := s.rsp ++ [0x06000000, s.bitLength] } ∧
    ∀ (a : BitVec 24) (rest : List Word), a ≠ 0 → s.cmd = header 0x06 a :: rest →
      step s = .next { s with cmd := rest, rsp := s.rsp ++ [0x06000005] }

/-- If GETBIT, GETBYTES or LENGTH answers a next state t from s, then storage, cap, bitLength and the command stream are
as in s, and the same read from t answers a next state u with the same words sent again. Formalises R81. -/
def Obligations.ReadsArePure : Prop :=
  ∀ (i : Instr) (s t : State), (i = .getbytes ∨ i = .length ∨ ∃ index, i = .getbit index) →
    exec i s = .next t →
      t.storage = s.storage ∧ t.cap = s.cap ∧ t.bitLength = s.bitLength ∧ t.cmd = s.cmd ∧
      ∃ (u : State) (ws : List Word), exec i t = .next u ∧ t.rsp = s.rsp ++ ws ∧ u.rsp = t.rsp ++ ws ∧ ws ≠ []

/-- APPEND is the words 0x04000000 | len, value. exec answers InvalidArgument (0x04000002) if len > 31, else
InvalidArgument if value >= 2^len, else CapacityExhausted (0x04000004) if bitLength + len > MAXLEN, each with nothing
else changed; otherwise, where the invariants hold, the next state is refAppend of the grown state and the bits of
value from bit len - 1 down to bit 0, and the one response word 0x04000000. MAXLEN is the default (log entry 4).
Formalises R82; R83. -/
def Obligations.AppendEqualsPerBitReference : Prop :=
  ∀ (s : State) (len : BitVec 24) (value : Word),
    encode (.append len value) = [0x04000000 ||| len.setWidth 32, value] ∧
    (31 < len.toNat →
      exec (.append len value) s = .next { s with rsp := s.rsp ++ [0x04000002] }) ∧
    (len.toNat ≤ 31 → 2 ^ len.toNat ≤ value.toNat →
      exec (.append len value) s = .next { s with rsp := s.rsp ++ [0x04000002] }) ∧
    (len.toNat ≤ 31 → value.toNat < 2 ^ len.toNat → Config.std.maxLen < s.len + len.toNat →
      exec (.append len value) s = .next { s with rsp := s.rsp ++ [0x04000004] }) ∧
    (len.toNat ≤ 31 → value.toNat < 2 ^ len.toNat → s.len + len.toNat ≤ Config.std.maxLen → Inv Config.std s →
      exec (.append len value) s =
        .next ((refAppend (grow (s.len + len.toNat) s) (runBits len.toNat value)).emit [0x04000000]))

/-- Where the invariants hold and a run of 1 to 31 bits passes the tests, exec answers a next state with bitLength = L +
len in which, with w = L div 32 and remain = 32 - L mod 32: if len <= remain, word w is its old value ORed with
shl32(value, remain - len); otherwise, with spill = len - remain, word w is ORed with shr(value, spill) and word w + 1
is shl32(value, 32 - spill). Every other word is as before. The spec gives the split in words and marks these formulas
as derived. Rests on 42_append_single.md. -/
def Obligations.AppendMergesWords : Prop :=
  ∀ (s : State) (len : BitVec 24) (value : Word), Inv Config.std s → 1 ≤ len.toNat → len.toNat ≤ 31 →
    value.toNat < 2 ^ len.toNat → s.len + len.toNat ≤ Config.std.maxLen →
    ∃ t, exec (.append len value) s = .next t ∧ t.len = s.len + len.toNat ∧
      (len.toNat ≤ remain s.len →
        t.word (wordOf s.len) = s.word (wordOf s.len) ||| shl32 value (remain s.len - len.toNat) ∧
        ∀ j, j ≠ wordOf s.len → t.word j = s.word j) ∧
      (remain s.len < len.toNat →
        t.word (wordOf s.len) = s.word (wordOf s.len) ||| shr value (len.toNat - remain s.len) ∧
        t.word (wordOf s.len + 1) = shl32 value (32 - (len.toNat - remain s.len)) ∧
        ∀ j, j ≠ wordOf s.len → j ≠ wordOf s.len + 1 → t.word j = s.word j)

/-- If APPEND answers a next state, from any state: the command stream is as before; one response word was added;
bitLength is as before or grew by len; cap is its old value times a power of two; every byte that existed and lies
outside the words from wordOf(bitLength) up to the end of the run reads as before; with len = 0 storage and cap are as
before. Rests on 20_memory.md section 3; 42_append_single.md. -/
def Obligations.AppendFrame : Prop :=
  ∀ (s t : State) (len : BitVec 24) (value : Word), exec (.append len value) s = .next t →
    t.cmd = s.cmd ∧ (∃ r, t.rsp = s.rsp ++ [r]) ∧
    (t.bitLength = s.bitLength ∨ t.len = s.len + len.toNat) ∧ (∃ k, t.cap = s.cap * 2 ^ k) ∧
    (∀ a, a < 4 * s.cap → (a < 4 * wordOf s.len ∨ 4 * wordsFor (s.len + len.toNat) ≤ a) →
      t.storage.readByte a = s.storage.readByte a) ∧
    (len.toNat = 0 → t.storage = s.storage ∧ t.cap = s.cap)

/-- Where the invariants hold and APPEND passes its tests, exec answers a next state whose cap is 2*cap if bitLength + len
> cap*32 and cap otherwise; then L + len <= cap*32, word w exists for len >= 1, word w + 1 exists when the run
crosses; for len = 0 storage and cap are untouched. That len = 0 touches no word and cannot grow the spec marks as
derived. Rests on 42_append_single.md; 20_memory.md section 5. -/
def Obligations.AppendGrowsAtMostOnce : Prop :=
  ∀ (s : State) (len : BitVec 24) (value : Word), Inv Config.std s → len.toNat ≤ 31 →
    value.toNat < 2 ^ len.toNat → s.len + len.toNat ≤ Config.std.maxLen →
    ∃ t, exec (.append len value) s = .next t ∧
      t.cap = (if s.cap * 32 < s.len + len.toNat then 2 * s.cap else s.cap) ∧
      s.len + len.toNat ≤ t.cap * 32 ∧
      (1 ≤ len.toNat → wordOf s.len < t.cap) ∧
      (remain s.len < len.toNat → wordOf s.len + 1 < t.cap) ∧
      (len.toNat = 0 → t.storage = s.storage ∧ t.cap = s.cap)

/-- Where the invariants hold and APPEND value, len passes its tests from bitLength = L, exec answers a next state t from
which GETBIT L + k answers bit len - 1 - k of value for k < len, and GETBIT j for j < L answers what it answered
before the append. The spec marks the law as derived. Rests on 41_read.md section 1. -/
def Obligations.AppendReadsBack : Prop :=
  ∀ (s : State) (len : BitVec 24) (value : Word), Inv Config.std s → len.toNat ≤ 31 →
    value.toNat < 2 ^ len.toNat → s.len + len.toNat ≤ Config.std.maxLen →
    ∃ t, exec (.append len value) s = .next t ∧
      (∀ k, k < len.toNat → exec (.getbit (BitVec.ofNat 32 (s.len + k))) t =
        .next (t.emit [0x02000000, if value.getLsbD (len.toNat - 1 - k) then 1 else 0])) ∧
      (∀ j, j < s.len → ∃ b : Word, exec (.getbit (BitVec.ofNat 32 j)) s = .next (s.emit [0x02000000, b]) ∧
        exec (.getbit (BitVec.ofNat 32 j)) t = .next (t.emit [0x02000000, b]))

/-- APPENDW is the words 0x05000000 | count, len, then the count source words. exec answers InvalidArgument (0x05000002)
if len > 32*count, else InvalidArgument if len mod 32 != 0 and the unused low-order bits of word len div 32 are not
all zero, else CapacityExhausted (0x05000004) if bitLength + len > MAXLEN, each with nothing else changed; otherwise,
where the invariants hold, the next state is refAppend of the grown state and the first len source bits, and the one
response word 0x05000000. MAXLEN is the default (log entry 4). The spec marks the bit order of the source words as
derived. Rests on 43_append_bulk.md; 20_memory.md section 4. -/
def Obligations.AppendwEqualsPerBitReference : Prop :=
  ∀ (s : State) (len : Word) (values : List Word),
    (values.length ≤ COUNTMAX →
      encode (.appendw len values) = (0x05000000 ||| BitVec.ofNat 32 values.length) :: len :: values) ∧
    (32 * values.length < len.toNat →
      exec (.appendw len values) s = .next { s with rsp := s.rsp ++ [0x05000002] }) ∧
    (len.toNat ≤ 32 * values.length → len.toNat % 32 ≠ 0 →
      (values.getD (len.toNat / 32) 0).toNat % 2 ^ (32 - len.toNat % 32) ≠ 0 →
      exec (.appendw len values) s = .next { s with rsp := s.rsp ++ [0x05000002] }) ∧
    (len.toNat ≤ 32 * values.length →
      (len.toNat % 32 = 0 ∨ (values.getD (len.toNat / 32) 0).toNat % 2 ^ (32 - len.toNat % 32) = 0) →
      (Config.std.maxLen < s.len + len.toNat →
        exec (.appendw len values) s = .next { s with rsp := s.rsp ++ [0x05000004] }) ∧
      (s.len + len.toNat ≤ Config.std.maxLen → Inv Config.std s →
        exec (.appendw len values) s =
          .next ((refAppend (grow (s.len + len.toNat) s) (sourceBits len.toNat values)).emit [0x05000000])))

/-- Where the invariants hold, bitLength mod 32 = 0, len >= 1 and the tests pass, exec answers a next state with bitLength
= L + len in which storage[w + k] = values[k] for k < ceil(len/32), with w = L div 32, and every other word is as
before. Formalises R98; R100. -/
def Obligations.FastCopyStoresSourceWords : Prop :=
  ∀ (s : State) (len : Word) (values : List Word), Inv Config.std s → used s.len = 0 → 1 ≤ len.toNat →
    checkAppendw Config.std len.toNat values s.len = none →
    ∃ t, exec (.appendw len values) s = .next t ∧ t.len = s.len + len.toNat ∧
      (∀ k, k < wordsFor len.toNat → t.word (wordOf s.len + k) = values.getD k 0) ∧
      ∀ j, j < wordOf s.len ∨ wordOf s.len + wordsFor len.toNat ≤ j → t.word j = s.word j

/-- Where the invariants hold, s = bitLength mod 32 is not 0, len >= 1 and the tests pass, exec answers a next state in
which, for k < len div 32, word w + k is shr(values[k], s) ORed with the old word w (k = 0) or with shl32(values[k -
1], 32 - s); and if len mod 32 = 0 the word after them is shl32 of the last source word. Words below w are as before.
Rests on 43_append_bulk.md. -/
def Obligations.ShiftMergeSplitsSourceWords : Prop :=
  ∀ (s : State) (len : Word) (values : List Word), Inv Config.std s → used s.len ≠ 0 → 1 ≤ len.toNat →
    checkAppendw Config.std len.toNat values s.len = none →
    ∃ t, exec (.appendw len values) s = .next t ∧
      (∀ k, k < len.toNat / 32 → t.word (wordOf s.len + k) =
        (if k = 0 then s.word (wordOf s.len) else shl32 (values.getD (k - 1) 0) (32 - used s.len)) |||
          shr (values.getD k 0) (used s.len)) ∧
      (len.toNat % 32 = 0 →
        t.word (wordOf s.len + len.toNat / 32) = shl32 (values.getD (len.toNat / 32 - 1) 0) (32 - used s.len)) ∧
      ∀ j, j < wordOf s.len → t.word j = s.word j

/-- If APPENDW answers a next state, from any state: the command stream is as before; one response word was added;
bitLength is as before or grew by len; cap is its old value times a power of two; every byte that existed and lies
outside the words from wordOf(bitLength) up to the end of the run reads as before; with len = 0 storage and cap are as
before. Rests on 20_memory.md section 3; 43_append_bulk.md. -/
def Obligations.AppendwFrame : Prop :=
  ∀ (s t : State) (len : Word) (values : List Word), exec (.appendw len values) s = .next t →
    t.cmd = s.cmd ∧ (∃ r, t.rsp = s.rsp ++ [r]) ∧
    (t.bitLength = s.bitLength ∨ t.len = s.len + len.toNat) ∧ (∃ k, t.cap = s.cap * 2 ^ k) ∧
    (∀ a, a < 4 * s.cap → (a < 4 * wordOf s.len ∨ 4 * wordsFor (s.len + len.toNat) ≤ a) →
      t.storage.readByte a = s.storage.readByte a) ∧
    (len.toNat = 0 → t.storage = s.storage ∧ t.cap = s.cap)

/-- If two source sequences both hold at least len bits and agree on their first ceil(len/32) words, APPENDW len of the
one and of the other answer the same from every state. Rests on 43_append_bulk.md; 92_eei_decisions.md D12. -/
def Obligations.AppendwIgnoresUnusedSourceWords : Prop :=
  ∀ (s : State) (len : Word) (values values' : List Word), len.toNat ≤ 32 * values.length →
    len.toNat ≤ 32 * values'.length → values.take (wordsFor len.toNat) = values'.take (wordsFor len.toNat) →
    exec (.appendw len values) s = exec (.appendw len values') s

/-- Where the invariants hold and APPENDW len, values passes its tests, exec answers a next state, and so does the
sequence: for each whole source word APPEND of its high 16 bits and APPEND of its low 16 bits, then APPEND of the used
bits of the partial final word if there is one; storage, cap and bitLength are the same after both. The spec marks the
law a model can state as derived. Rests on 43_append_bulk.md. -/
def Obligations.AppendwEqualsSingleAppends : Prop :=
  ∀ (s : State) (len : Word) (values : List Word), Inv Config.std s →
    checkAppendw Config.std len.toNat values s.len = none →
    ∃ t u, exec (.appendw len values) s = .next t ∧
      execAll Config.std (groupAppends len.toNat values) s = .next u ∧
      t.storage = u.storage ∧ t.cap = u.cap ∧ t.bitLength = u.bitLength

/-- Where the invariants hold: if APPEND (or APPENDW) passes its tests, exec answers a next state whose written stream is
the old written stream followed by the run's bits. Rests on 20_memory.md section 4. -/
def Obligations.AppendsExtendWrittenStream : Prop :=
  ∀ s : State, Inv Config.std s →
    (∀ (len : BitVec 24) (value : Word), checkAppend Config.std len.toNat value s.len = none →
      ∃ t, exec (.append len value) s = .next t ∧ written t = written s ++ runBits len.toNat value) ∧
    (∀ (len : Word) (values : List Word), checkAppendw Config.std len.toNat values s.len = none →
      ∃ t, exec (.appendw len values) s = .next t ∧ written t = written s ++ sourceBits len.toNat values)

/-- On every legal instance: an APPEND or APPENDW whose operands are valid answers CapacityExhausted with nothing else
changed if bitLength + len > MAXLEN; where the invariants hold and bitLength + len = MAXLEN it answers a next state
with bitLength = MAXLEN and status OK. Formalises R109. -/
def Obligations.MaxlenIsReachedExactly : Prop :=
  ∀ (cfg : Config) (s : State), cfg.legal →
    (∀ (len : BitVec 24) (value : Word), len.toNat ≤ 31 → value.toNat < 2 ^ len.toNat →
      (cfg.maxLen < s.len + len.toNat →
        execUnder cfg (.append len value) s = .next { s with rsp := s.rsp ++ [0x04000004] }) ∧
      (s.len + len.toNat = cfg.maxLen → Inv cfg s →
        ∃ t, execUnder cfg (.append len value) s = .next t ∧ t.len = cfg.maxLen ∧
          t.rsp = s.rsp ++ [0x04000000])) ∧
    (∀ (len : Word) (values : List Word), len.toNat ≤ 32 * values.length → dirtyTail len.toNat values = false →
      (cfg.maxLen < s.len + len.toNat →
        execUnder cfg (.appendw len values) s = .next { s with rsp := s.rsp ++ [0x05000004] }) ∧
      (s.len + len.toNat = cfg.maxLen → Inv cfg s →
        ∃ t, execUnder cfg (.appendw len values) s = .next t ∧ t.len = cfg.maxLen ∧
          t.rsp = s.rsp ++ [0x05000000]))

/-- For every well-formed command i and all words that follow, decode of encode i followed by those words is command i
with those words left over. Rests on 30_encoding.md section 1; 30_encoding.md section 2. -/
def Obligations.DecodeEncodeRoundTrip : Prop :=
  ∀ (i : Instr) (rest : List Word), i.wf = true → decode (encode i ++ rest) = .command i rest

/-- If decode reads command i from the command stream and leaves rest, then i is well formed and the stream is encode i
followed by rest: no two packets mean the same command and no word is lost. Rests on 30_encoding.md section 1. -/
def Obligations.DecodedPacketIsItsEncoding : Prop :=
  ∀ (ws rest : List Word) (i : Instr), decode ws = .command i rest → i.wf = true ∧ ws = encode i ++ rest

/-- One packet of each command, with the words as the spec's vectors write them, decodes to that command; two illegal
words are refused by name; an APPENDW packet that lacks a word is incomplete. Rests on 30_encoding.md section 1;
95_test_vectors.md section 2. -/
def Obligations.SampleWordsDecode : Prop :=
  decode [0x01000000] = .command .init [] ∧
  decode [0x02000000, 0x0000001E] = .command (.getbit 30) [] ∧
  decode [0x03000000] = .command .getbytes [] ∧
  decode [0x0400001B, 0x05A5A5A5] = .command (.append 27 0x05A5A5A5) [] ∧
  decode [0x05000002, 0x00000030, 0xDEADBEEF, 0x12340000] =
    .command (.appendw 48 [0xDEADBEEF, 0x12340000]) [] ∧
  decode [0x06000000] = .command .length [] ∧
  decode [0x00000000, 0x06000000] = .illegal 0x00 .reservedOpcode [0x06000000] ∧
  decode [0x02000001, 0x00000000] = .illegal 0x02 .nonzeroArgument [] ∧
  decode [0x05000002, 0x00000000, 0x00000000] = .incomplete

/-- packetWords(h) is 2 for opcodes 0x02 and 0x04, 2 + a for 0x05 and 1 otherwise; with fewer words on the stream the
decoder finds no packet; with at least that many it reads a command or an illegal packet with the opcode of h and
leaves exactly the words after the first packetWords(h). Formalises R57. -/
def Obligations.PacketLengthFromHeader : Prop :=
  ∀ (h : Word) (t : List Word),
    (headerOp h = 0x02 ∨ headerOp h = 0x04 → packetWords h = 2) ∧
    (headerOp h = 0x05 → packetWords h = 2 + (headerArg h).toNat) ∧
    (headerOp h ≠ 0x02 → headerOp h ≠ 0x04 → headerOp h ≠ 0x05 → packetWords h = 1) ∧
    ((h :: t).length < packetWords h → decode (h :: t) = .incomplete) ∧
    (packetWords h ≤ (h :: t).length →
      (∃ i, decode (h :: t) = .command i ((h :: t).drop (packetWords h)) ∧ opcode i = headerOp h) ∨
      ∃ why, decode (h :: t) = .illegal (headerOp h) why ((h :: t).drop (packetWords h)))

/-- If the next header has opcode 0x00 or 0x07 .. 0xFF, step answers a next state in which that one word is consumed and
one response word, the same opcode with err = 5, is sent; nothing else changes. The all-zero and the all-ones word are
such headers. Formalises R66. -/
def Obligations.ReservedOpcodeIsIllegal : Prop :=
  (∀ (s : State) (h : Word) (t : List Word), s.cmd = h :: t → (headerOp h = 0x00 ∨ 7 ≤ (headerOp h).toNat) →
    step s = .next { s with cmd := t, rsp := s.rsp ++ [header (headerOp h) 5] }) ∧
  headerOp 0x00000000 = 0x00 ∧ 7 ≤ (headerOp 0xFFFFFFFF).toNat

/-- If the next packet is complete, has opcode 0x01, 0x02, 0x03 or 0x06 and a != 0, step consumes packetWords(h) words,
sends one response word with the same opcode and err = 5, and changes nothing else. A complete packet with opcode 0x04
or 0x05 decodes to an APPEND or APPENDW command for every a. Formalises R67. -/
def Obligations.NonzeroArgumentIsIllegal : Prop :=
  ∀ (s : State) (h : Word) (t : List Word), s.cmd = h :: t → packetWords h ≤ (h :: t).length →
    ((headerOp h = 0x01 ∨ headerOp h = 0x02 ∨ headerOp h = 0x03 ∨ headerOp h = 0x06) → headerArg h ≠ 0 →
      step s = .next { s with
        cmd := (h :: t).drop (packetWords h), rsp := s.rsp ++ [header (headerOp h) 5] }) ∧
    (headerOp h = 0x04 → ∃ value rest, decode (h :: t) = .command (.append (headerArg h) value) rest) ∧
    (headerOp h = 0x05 →
      ∃ len values rest, decode (h :: t) = .command (.appendw len values) rest ∧
        values.length = (headerArg h).toNat)

/-- With an empty command stream, or with fewer words than packetWords of its header, step answers the very same state;
once the host delivers at least the missing words the packet is no longer incomplete. That a waiting block takes a
step to the same state is the model's choice, log entry 2; the spec's sentence is "the block executes nothing, changes
nothing and responds nothing until the missing words come". Rests on 30_encoding.md section 2. -/
def Obligations.IncompletePacketWaits : Prop :=
  ∀ s : State,
    (s.cmd = [] → step s = .next s) ∧
    ∀ (h : Word) (t : List Word), s.cmd = h :: t → (h :: t).length < packetWords h →
      step s = .next s ∧
      ∀ ws : List Word, packetWords h ≤ (h :: t).length + ws.length → decode (s.deliver ws).cmd ≠ .incomplete

/-- For every finite word sequence there is exactly one pair of a list of packets, each of the length its header tells,
and a remainder that is empty or shorter than its header tells, which concatenated give the sequence. The spec marks
this as derived from the packet length. Rests on 30_encoding.md section 4. -/
def Obligations.StreamSplitsUniquely : Prop :=
  ∀ ws : List Word, ∃! p : List (List Word) × List Word,
    ws = p.1.flatten ++ p.2 ∧ (∀ q ∈ p.1, ∃ h t, q = h :: t ∧ q.length = packetWords h) ∧
      (p.2 = [] ∨ ∃ h t, p.2 = h :: t ∧ p.2.length < packetWords h)

/-- When the command stream begins with the packet of a well-formed command i, step answers what exec of i answers on the
state with that packet removed from the stream and nothing else changed. Rests on 00_scope.md section 4; 20_memory.md
section 7. -/
def Obligations.StepRunsDecodedCommand : Prop :=
  ∀ (s : State) (i : Instr) (rest : List Word), i.wf = true → s.cmd = encode i ++ rest →
    step s = exec i (s.setCmd rest)

/-- For every list of well-formed commands: if executing them one after the other from a state answers t, then running as
many steps of the machine on that state with their packets placed before its command stream answers t. Rests on
20_memory.md section 7; 70_reset_and_hazards.md section 2. -/
def Obligations.StreamRunsCommandsInOrder : Prop :=
  ∀ (is : List Instr) (s t : State), (∀ i ∈ is, i.wf = true) → execAll Config.std is s = .next t →
    Sys2Proof.core.run is.length (s.setCmd (is.flatMap encode ++ s.cmd)) = .next t

/-- If the command stream begins with a complete packet and step answers a next state, the response stream grew by one
status word r, with r[31:24] the opcode of the packet's header, r[23:8] zero and r[7:0] either 0 or the code of one of
the five errors, followed by payload words; with an error there is no payload. Formalises R62. -/
def Obligations.OneResponsePerPacket : Prop :=
  ∀ (s t : State), decode s.cmd ≠ .incomplete → step s = .next t →
    ∃ (r : Word) (payload : List Word), t.rsp = s.rsp ++ r :: payload ∧
      r.extractLsb' 24 8 = headerOp (s.cmd.headD 0) ∧ r.extractLsb' 8 16 = 0 ∧
      (r.extractLsb' 0 8 = 0 ∨ ∃ e : Err, r.extractLsb' 0 8 = e.code ∧ payload = [])

/-- If exec of a command answers a next state with status OK, its payload has no word for INIT, APPEND and APPENDW, one
word for GETBIT and LENGTH, and 1 + ceil(n/4) words for GETBYTES, n = bitLength/8. Rests on 30_encoding.md section 3. -/
def Obligations.PayloadWordCounts : Prop :=
  ∀ (i : Instr) (s t : State) (payload : List Word), exec i s = .next t →
    t.rsp = s.rsp ++ statusWord (opcode i) okCode :: payload →
    payload.length =
      match i with
      | .init => 0
      | .getbit _ => 1
      | .getbytes => 1 + (s.len / 8 + 3) / 4
      | .append _ _ => 0
      | .appendw _ _ => 0
      | .length => 1

/-- err is 0 for OK, 1 for Range, 2 for InvalidArgument, 3 for InvalidState, 4 for CapacityExhausted, 5 for
IllegalCommand; no status of the model has a code above 5. Formalises R65. -/
def Obligations.ErrorCodeValues : Prop :=
  okCode = 0 ∧ Err.range.code = 1 ∧ Err.invalidArgument.code = 2 ∧ Err.invalidState.code = 3 ∧
    Err.capacityExhausted.code = 4 ∧ Err.illegalCommand.code = 5 ∧
    ∀ e : Err, 1 ≤ e.code.toNat ∧ e.code.toNat ≤ 5

/-- If step answers a next state and the status word r it sent has a non-zero err field, then storage, cap and bitLength
are exactly as before, and no payload word was sent. Formalises R113. -/
def Obligations.ErrorLeavesBufferUnchanged : Prop :=
  ∀ (s t : State) (r : Word) (payload : List Word), step s = .next t → t.rsp = s.rsp ++ r :: payload →
    r.extractLsb' 0 8 ≠ 0 →
    t.storage = s.storage ∧ t.cap = s.cap ∧ t.bitLength = s.bitLength ∧ payload = [] ∧
      r.extractLsb' 24 8 = headerOp (s.cmd.headD 0)

/-- If exec of a command other than INIT answers a next state, its bitLength is at least the old one; and if the status it
sent is an error, bitLength is the old one. Formalises R22. -/
def Obligations.LengthNeverDecreases : Prop :=
  ∀ (i : Instr) (s t : State), i ≠ .init → exec i s = .next t →
    s.len ≤ t.len ∧ ∀ e : Err, t.rsp = s.rsp ++ [statusWord (opcode i) e.code] → t.bitLength = s.bitLength

/-- If exec of a command other than INIT answers a next state, its cap is the old cap times a power of two, and for
GETBIT, GETBYTES and LENGTH the old cap. Rests on 10_state.md section 1; 20_memory.md section 5. -/
def Obligations.CapChangesOnlyByDoubling : Prop :=
  ∀ (i : Instr) (s t : State), i ≠ .init → exec i s = .next t →
    (∃ k, t.cap = s.cap * 2 ^ k) ∧
      ((i = .getbytes ∨ i = .length ∨ ∃ index, i = .getbit index) → t.cap = s.cap)

/-- From every state that meets the invariants of section 2 (with the default MAXLEN, log entry 4, and the canonical
memory, log entry 5), if step answers a next state, that state meets them. Rests on 10_state.md section 2. -/
def Obligations.StepKeepsInvariant : Prop :=
  ∀ s t : State, Inv Config.std s → step s = .next t → Inv Config.std t

/-- On every legal instance, from every state that meets the invariants a step answers a next state (no access to a word
that does not exist, log entry 3), and that state meets the invariants again. Rests on 10_state.md section 2;
20_memory.md section 3; 20_memory.md section 5. -/
def Obligations.EveryInstanceStepsSafely : Prop :=
  ∀ (cfg : Config) (s : State), cfg.legal → Inv cfg s → ∃ t, stepUnder cfg s = .next t ∧ Inv cfg t

/-- For every legal MAXLEN the reset state meets LEN, ZERO-TAIL and CAP and its memory has the canonical form. Rests on
10_state.md section 6. -/
def Obligations.ResetMeetsInvariant : Prop :=
  ∀ cfg : Config, cfg.legal → Inv cfg State.reset

/-- For every command and state, exec and step answer what execUnder and stepUnder answer on the instance whose MAXLEN is
2147483647. Rests on 00_scope.md section 3. -/
def Obligations.DefaultInstanceIsStep : Prop :=
  Config.std.maxLen = 2147483647 ∧ (∀ (i : Instr) (s : State), exec i s = execUnder Config.std i s) ∧
    ∀ s : State, step s = stepUnder Config.std s

/-- If two states meet the invariants, have the same bitLength, the same bits below it, the same command stream and the
same responses sent so far, then after any number of steps both have a next state, with the same response stream,
command stream and bitLength. The spec marks the claim as derived. Rests on 10_state.md section 4. -/
def Obligations.CapIsHidden : Prop :=
  ∀ (n : Nat) (s t : State), Inv Config.std s → Inv Config.std t → s.bitLength = t.bitLength →
    (∀ j, j < s.len → bitAt s j = bitAt t j) → s.cmd = t.cmd → s.rsp = t.rsp →
    ∃ s' t', Sys2Proof.core.run n s = .next s' ∧ Sys2Proof.core.run n t = .next t' ∧
      s'.rsp = t'.rsp ∧ s'.cmd = t'.cmd ∧ s'.bitLength = t'.bitLength

/-- In a state whose storage has the canonical form, for w < cap: MemRead(w) answers storage[w]; MemWrite(w, v) answers a
state in which storage[w] = v, read back by MemRead, and every other word, cap, bitLength and both streams are
unchanged, and the storage is canonical again. The canonical form is the model's choice, log entry 5; the spec's
sentence is "afterwards `storage[w] = v` and every other word, `cap` and `bitLength` are unchanged". Rests on
20_memory.md section 3. -/
def Obligations.WordAccessTouchesOneWord : Prop :=
  ∀ (s : State) (w : Nat) (v : Word), s.storage.wf = true → w < s.cap →
    memRead w s = .ok (s.word w) ∧
    ∃ t, memWrite w v s = .ok t ∧ t.word w = v ∧ memRead w t = .ok v ∧ (∀ j, j ≠ w → t.word j = s.word j) ∧
      t.cap = s.cap ∧ t.bitLength = s.bitLength ∧ t.cmd = s.cmd ∧ t.rsp = s.rsp ∧ t.storage.wf = true

/-- For w >= cap MemRead and MemWrite answer the fault noSuchWord. The spec gives these accesses no meaning: "a fault of
the model, not of the hardware"; log entry 3. Rests on 20_memory.md section 3. -/
def Obligations.AccessBeyondCapFaults : Prop :=
  ∀ (s : State) (w : Nat) (v : Word), s.cap ≤ w →
    memRead w s = .error (.noSuchWord w s.cap) ∧ memWrite w v s = .error (.noSuchWord w s.cap)

/-- For cap >= 1: after Grow(need), cap*32 >= need; the new cap is the old one doubled some k times, and k is the least
number of doublings that suffices (0 when need already fits); it is a power of two if the old one was. That the
doubling repeats until the run fits the spec marks as derived. Rests on 20_memory.md section 5. -/
def Obligations.GrowReachesLeastFit : Prop :=
  ∀ (s : State) (need : Nat), 1 ≤ s.cap →
    need ≤ (grow need s).cap * 32 ∧
    (∃ k, (grow need s).cap = s.cap * 2 ^ k ∧ ∀ j, need ≤ s.cap * 2 ^ j * 32 → k ≤ j) ∧
    ((∃ k, s.cap = 2 ^ k) → ∃ k, (grow need s).cap = 2 ^ k)

/-- After Grow(need), from any state with cap >= 1: storage[j] is unchanged for j below the old cap and 0 from there up to
the new cap; bitLength is unchanged, and so are both streams; where bitLength <= cap*32 every bit below bitLength is
as before. Formalises R43. -/
def Obligations.GrowKeepsContents : Prop :=
  ∀ (s : State) (need : Nat), 1 ≤ s.cap →
    (∀ j, j < s.cap → (grow need s).word j = s.word j) ∧
    (∀ j, s.cap ≤ j → j < (grow need s).cap → (grow need s).word j = 0) ∧
    (grow need s).bitLength = s.bitLength ∧ (grow need s).cmd = s.cmd ∧ (grow need s).rsp = s.rsp ∧
    (s.len ≤ s.cap * 32 → ∀ i, i < s.len → bitAt (grow need s) i = bitAt s i)

/-- On every legal instance, from a state with cap a power of two between 64 and PHYS, Grow(need) with need <= MAXLEN ends
with cap <= PHYS, and PHYS*32 >= MAXLEN. The spec marks this as derived. Rests on 20_memory.md section 5. -/
def Obligations.GrowStaysWithinPhys : Prop :=
  ∀ (cfg : Config) (s : State) (need : Nat), cfg.legal → InvCap cfg s → need ≤ cfg.maxLen →
    InvCap cfg (grow need s) ∧ cfg.maxLen ≤ cfg.phys * 32

/-- Where the invariants hold: if APPEND or APPENDW answers a next state, whether or not cap was doubled, every bit below
the old bitLength is as before. Rests on 20_memory.md section 5. -/
def Obligations.AppendsKeepReadableBits : Prop :=
  ∀ (i : Instr) (s t : State), Inv Config.std s →
    ((∃ len value, i = .append len value) ∨ ∃ len values, i = .appendw len values) →
    exec i s = .next t → ∀ j, j < s.len → bitAt t j = bitAt s j

/-- From a state with a canonical memory and a zero tail, for a run that fits: t is refAppend(s, bits) exactly when t has
the same cap and streams, bitLength grown by the number of bits, the old bits below the old bitLength, the run's bits
after them, zeros up to cap*32, and a canonical memory (log entry 5). Rests on 20_memory.md section 4. -/
def Obligations.RefAppendIsTheOnlyExtension : Prop :=
  ∀ (s t : State) (bits : List Bool), InvMemory s → InvZeroTail s → s.len + bits.length ≤ s.cap * 32 →
    s.len + bits.length < 2 ^ 32 →
    (t = refAppend s bits ↔
      t.cap = s.cap ∧ t.len = s.len + bits.length ∧ (∀ j, j < s.len → bitAt t j = bitAt s j) ∧
      (∀ k, k < bits.length → bitAt t (s.len + k) = bits.getD k false) ∧
      (∀ j, s.len + bits.length ≤ j → j < s.cap * 32 → bitAt t j = false) ∧
      InvMemory t ∧ t.cmd = s.cmd ∧ t.rsp = s.rsp)

/-- With w = bitLength div 32 and o = bitLength mod 32: every bit at an index from bitLength to cap*32 - 1 is zero exactly
when every word j with w < j < cap is 0 and, if o != 0 and w < cap, storage[w] & lowmask(32 - o) = 0, and, if o = 0
and w < cap, storage[w] = 0. Formalises R21. -/
def Obligations.ZeroTailInWordTerms : Prop :=
  ∀ s : State,
    InvZeroTail s ↔
      (∀ j, wordOf s.len < j → j < s.cap → s.word j = 0) ∧
      (used s.len ≠ 0 → wordOf s.len < s.cap → s.word (wordOf s.len) &&& lowmask (32 - used s.len) = 0) ∧
      (used s.len = 0 → wordOf s.len < s.cap → s.word (wordOf s.len) = 0)

/-- On every instance and from every state: exec of a command is the step of the block on the three items (storage, cap,
bitLength) and the packet alone, with the command stream left as it is and the answer put after the responses sent
before; and when the command stream begins with a complete packet, legal or illegal, a step takes it off whole and is
the step of the block on it. That the streams stand beside the block in the state of the interface is the model's
choice, log entry 1; the spec's sentence is "the response stream (an output, never read by the block)". Rests on
10_state.md section 1; 10_state.md section 7. -/
def Obligations.BlockStepNeedsNoPorts : Prop :=
  ∀ (cfg : Config) (s : State),
    (∀ i : Instr, execUnder cfg i s = atPorts s (blockStep cfg (.command i) s.toBuffer)) ∧
    (∀ (i : Instr) (rest : List Word), decode s.cmd = .command i rest →
      stepUnder cfg s = atPorts (s.setCmd rest) (blockStep cfg (.command i) s.toBuffer)) ∧
    ∀ (op : BitVec 8) (why : Illegal) (rest : List Word), decode s.cmd = .illegal op why rest →
      stepUnder cfg s = atPorts (s.setCmd rest) (blockStep cfg (.illegal op) s.toBuffer)

/-- Where the invariants hold, for every list of packets and every list of word sequences that are those packets: the run
of the block on the packets answers a final state of the three items and one response packet per packet; and as many
steps of the machine, with those words placed before its command stream, answer that state, the response packets in
order after the responses sent before, and the command stream as it was. MAXLEN is the default (log entry 4); the
streams stand beside the block by log entry 1. Rests on 70_reset_and_hazards.md section 2. -/
def Obligations.PacketRunIsBlockRun : Prop :=
  ∀ (ps : List Packet) (wss : List (List Word)) (s : State), Inv Config.std s → wss.map packetOf = ps.map some →
    ∃ (b : Buffer) (rs : List (List Word)), blockRun Config.std ps s.toBuffer = .next (b, rs) ∧
      rs.length = ps.length ∧
      Sys2Proof.core.run ps.length (s.setCmd (wss.flatten ++ s.cmd)) =
        .next { toBuffer := b, cmd := s.cmd, rsp := s.rsp ++ rs.flatten }
end

