-- ==== Sys2Proof/Laws/Memory.lean ====
section
/-! SUPPORT. The laws of `storage`: reading after writing, the canonical form kept, and that two canonical memories
with the same bytes are the same list. -/

namespace Sys2Proof.Machine

/-! ### The canonical form -/

theorem Memory.wfFrom_cons {lo : Nat} {c : Host.Cell} {m : Memory} :
    Memory.wfFrom lo (c :: m) = true ↔ lo ≤ c.1 ∧ c.2 ≠ Memory.unlisted ∧ Memory.wfFrom (c.1 + 1) m = true := by
  simp [Memory.wfFrom, and_assoc]

theorem Memory.wfFrom_mono {lo lo' : Nat} {m : Memory} (hle : lo' ≤ lo) (h : Memory.wfFrom lo m = true) :
    Memory.wfFrom lo' m = true := by
  cases m with
  | nil => rfl
  | cons c m =>
    rw [Memory.wfFrom_cons] at h ⊢
    exact ⟨hle.trans h.1, h.2⟩

/-- Below the first address of a canonical memory every byte is unlisted. -/
theorem Memory.readByte_of_lt {lo a : Nat} {m : Memory} (h : Memory.wfFrom lo m = true) (ha : a < lo) :
    m.readByte a = Memory.unlisted := by
  induction m generalizing lo with
  | nil => rfl
  | cons c m ih =>
    rw [Memory.wfFrom_cons] at h
    have hne : c.1 ≠ a := by omega
    simp only [Memory.readByte, hne, if_false]
    exact ih h.2.2 (by omega)

theorem Memory.writeByte_wfFrom {lo a : Nat} {b : Byte} {m : Memory} (h : Memory.wfFrom lo m = true) (ha : lo ≤ a) :
    Memory.wfFrom lo (m.writeByte a b) = true := by
  induction m generalizing lo with
  | nil =>
    by_cases hb : b = Memory.unlisted
    · simp [Memory.writeByte, hb, Memory.wfFrom]
    · simp [Memory.writeByte, hb, Memory.wfFrom, ha]
  | cons c m ih =>
    rw [Memory.wfFrom_cons] at h
    obtain ⟨h1, h2, h3⟩ := h
    unfold Memory.writeByte
    split_ifs with hlt heq hb hb
    · rw [Memory.wfFrom_cons]
      exact ⟨h1, h2, ih h3 hlt⟩
    · exact Memory.wfFrom_mono (by omega) h3
    · rw [Memory.wfFrom_cons]
      exact ⟨ha, hb, by rw [← heq]; exact h3⟩
    · rw [Memory.wfFrom_cons]
      exact ⟨h1, h2, h3⟩
    · rw [Memory.wfFrom_cons, Memory.wfFrom_cons]
      exact ⟨ha, hb, by omega, h2, h3⟩

/-- Writing a byte keeps the canonical form. -/
theorem Memory.writeByte_wf {m : Memory} (h : m.wf = true) (a : Nat) (b : Byte) : (m.writeByte a b).wf = true :=
  Memory.writeByte_wfFrom h (Nat.zero_le a)

/-- Writing a word keeps the canonical form. -/
theorem Memory.writeWord_wf {m : Memory} (h : m.wf = true) (w : Nat) (v : Word) : (m.writeWord w v).wf = true :=
  Memory.writeByte_wf (Memory.writeByte_wf (Memory.writeByte_wf (Memory.writeByte_wf h _ _) _ _) _ _) _ _

theorem Memory.below_wfFrom {lo : Nat} {m : Memory} (h : Memory.wfFrom lo m = true) (n : Nat) :
    Memory.wfFrom lo (m.below n) = true := by
  induction m generalizing lo with
  | nil => rfl
  | cons c m ih =>
    rw [Memory.wfFrom_cons] at h
    by_cases hc : c.1 < n
    · simp only [Memory.below, List.filter_cons, hc, decide_true, if_true]
      exact Memory.wfFrom_cons.2 ⟨h.1, h.2.1, ih h.2.2⟩
    · simp only [Memory.below, List.filter_cons, hc, decide_false]
      exact Memory.wfFrom_mono (by omega) (ih h.2.2)

/-- Cutting a memory keeps the canonical form. -/
theorem Memory.below_wf {m : Memory} (h : m.wf = true) (n : Nat) : (m.below n).wf = true := Memory.below_wfFrom h n

/-! ### Reading after writing -/

theorem Memory.readByte_writeByte_of_ne {a a' : Nat} (m : Memory) (b : Byte) (h : a' ≠ a) :
    (m.writeByte a b).readByte a' = m.readByte a' := by
  induction m with
  | nil => by_cases hb : b = Memory.unlisted <;> simp [Memory.writeByte, hb, Memory.readByte, Ne.symm h]
  | cons c m ih =>
    unfold Memory.writeByte
    split_ifs with hlt heq hb hb
    · simp [Memory.readByte, ih]
    · have : c.1 ≠ a' := by omega
      simp [Memory.readByte, this]
    · have : c.1 ≠ a' := by omega
      simp [Memory.readByte, this, Ne.symm h]
    · rfl
    · simp [Memory.readByte, Ne.symm h]

theorem Memory.readByte_writeByte_self {lo a : Nat} {m : Memory} (b : Byte) (h : Memory.wfFrom lo m = true) :
    (m.writeByte a b).readByte a = b := by
  induction m generalizing lo with
  | nil => by_cases hb : b = Memory.unlisted <;> simp [Memory.writeByte, hb, Memory.readByte]
  | cons c m ih =>
    rw [Memory.wfFrom_cons] at h
    unfold Memory.writeByte
    split_ifs with hlt heq hb hb
    · have : c.1 ≠ a := by omega
      simp [Memory.readByte, this, ih h.2.2]
    · rw [hb]
      exact Memory.readByte_of_lt h.2.2 (by omega)
    · simp [Memory.readByte]
    · have : c.1 ≠ a := by omega
      simp only [Memory.readByte, this, if_false, hb]
      exact Memory.readByte_of_lt h.2.2 (by omega)
    · simp [Memory.readByte]

theorem Memory.readByte_writeByte {m : Memory} (h : m.wf = true) (a a' : Nat) (b : Byte) :
    (m.writeByte a b).readByte a' = if a' = a then b else m.readByte a' := by
  split_ifs with he
  · rw [he]
    exact Memory.readByte_writeByte_self b h
  · exact Memory.readByte_writeByte_of_ne m b he

/-- A byte outside a written word is as it was. -/
theorem Memory.readByte_writeWord_of_ne {a w : Nat} (m : Memory) (v : Word) (h : a / 4 ≠ w) :
    (m.writeWord w v).readByte a = m.readByte a := by
  unfold Memory.writeWord
  rw [Memory.readByte_writeByte_of_ne _ _ (by omega), Memory.readByte_writeByte_of_ne _ _ (by omega),
    Memory.readByte_writeByte_of_ne _ _ (by omega), Memory.readByte_writeByte_of_ne _ _ (by omega)]

/-- Another word is as it was. -/
theorem Memory.readWord_writeWord_of_ne {w w' : Nat} (m : Memory) (v : Word) (h : w' ≠ w) :
    (m.writeWord w v).readWord w' = m.readWord w' := by
  unfold Memory.readWord
  rw [Memory.readByte_writeWord_of_ne _ _ (by omega), Memory.readByte_writeWord_of_ne _ _ (by omega),
    Memory.readByte_writeWord_of_ne _ _ (by omega), Memory.readByte_writeWord_of_ne _ _ (by omega)]

/-- A word is its four bytes, most significant first. -/
theorem Memory.word_of_bytes (v : Word) :
    v.extractLsb' 24 8 ++ v.extractLsb' 16 8 ++ v.extractLsb' 8 8 ++ v.extractLsb' 0 8 = v := by
  apply BitVec.eq_of_getLsbD_eq
  intro i hi
  simp only [BitVec.getLsbD_append, BitVec.getLsbD_extractLsb']
  split_ifs with h1 h2 h3
  · simp [h1]
  · have : i - 8 < 8 := h2
    simp only [h2, decide_true, Bool.true_and]
    congr 1
    omega
  · simp only [h3, decide_true, Bool.true_and]
    congr 1
    omega
  · have : i - 8 - 8 - 8 < 8 := by omega
    simp only [this, decide_true, Bool.true_and]
    congr 1
    omega

/-- The written word is read back. -/
theorem Memory.readWord_writeWord_self {m : Memory} (h : m.wf = true) (w : Nat) (v : Word) :
    (m.writeWord w v).readWord w = v := by
  have h1 := Memory.writeByte_wf h (4 * w) (v.extractLsb' 24 8)
  have h2 := Memory.writeByte_wf h1 (4 * w + 1) (v.extractLsb' 16 8)
  have h3 := Memory.writeByte_wf h2 (4 * w + 2) (v.extractLsb' 8 8)
  unfold Memory.readWord Memory.writeWord
  simp only [Memory.readByte_writeByte h3, Memory.readByte_writeByte h2, Memory.readByte_writeByte h1,
    Memory.readByte_writeByte h]
  simp only [show (4 * w = 4 * w + 3) = False from by simp, show (4 * w = 4 * w + 2) = False from by simp,
    show (4 * w = 4 * w + 1) = False from by simp, show (4 * w + 1 = 4 * w + 3) = False from by simp,
    show (4 * w + 1 = 4 * w + 2) = False from by simp, show (4 * w + 2 = 4 * w + 3) = False from by simp,
    if_true, if_false]
  exact Memory.word_of_bytes v

theorem Memory.readWord_writeWord {m : Memory} (h : m.wf = true) (w w' : Nat) (v : Word) :
    (m.writeWord w v).readWord w' = if w' = w then v else m.readWord w' := by
  split_ifs with he
  · rw [he]
    exact Memory.readWord_writeWord_self h w v
  · exact Memory.readWord_writeWord_of_ne m v he

/-- The bytes from `n` up of a cut memory read as 0, the others as before. -/
theorem Memory.readByte_below (m : Memory) (n a : Nat) :
    (m.below n).readByte a = if a < n then m.readByte a else Memory.unlisted := by
  induction m with
  | nil => simp [Memory.below, Memory.readByte]
  | cons c m ih =>
    unfold Memory.below at ih ⊢
    by_cases hc : c.1 < n
    · simp only [List.filter_cons, hc, decide_true, if_true, Memory.readByte]
      by_cases hca : c.1 = a
      · have : a < n := by omega
        simp [hca, this]
      · simp [hca, ih]
    · simp only [List.filter_cons, hc, decide_false]
      by_cases hca : c.1 = a
      · have : ¬ a < n := by omega
        simp [ih, this]
      · simpa [Memory.readByte, hca] using ih

theorem Memory.readWord_nil (w : Nat) : Memory.readWord [] w = 0 := by
  simp [Memory.readWord, Memory.readByte, Memory.unlisted]

theorem Memory.readWord_below (m : Memory) (n w : Nat) :
    (m.below (4 * n)).readWord w = if w < n then m.readWord w else 0 := by
  unfold Memory.readWord
  simp only [Memory.readByte_below]
  split_ifs <;> first | rfl | omega

/-! ### Which bytes are listed -/

theorem Memory.mem_writeByte {m : Memory} {a : Nat} {b : Byte} {c : Host.Cell} (h : c ∈ m.writeByte a b) :
    c.1 = a ∨ c ∈ m := by
  induction m with
  | nil =>
    unfold Memory.writeByte at h
    split_ifs at h <;> simp_all
  | cons d m ih =>
    unfold Memory.writeByte at h
    split_ifs at h
    · rcases List.mem_cons.1 h with h | h
      · exact .inr (by simp [h])
      · exact (ih h).imp id (List.mem_cons_of_mem _)
    · exact .inr (List.mem_cons_of_mem _ h)
    · rcases List.mem_cons.1 h with h | h
      · exact .inl (by simp [h])
      · exact .inr (List.mem_cons_of_mem _ h)
    · exact .inr h
    · rcases List.mem_cons.1 h with h | h
      · exact .inl (by simp [h])
      · exact .inr h

theorem Memory.mem_writeWord {m : Memory} {w : Nat} {v : Word} {c : Host.Cell} (h : c ∈ m.writeWord w v) :
    c.1 / 4 = w ∨ c ∈ m := by
  unfold Memory.writeWord at h
  rcases Memory.mem_writeByte h with h | h
  · exact .inl (by omega)
  rcases Memory.mem_writeByte h with h | h
  · exact .inl (by omega)
  rcases Memory.mem_writeByte h with h | h
  · exact .inl (by omega)
  rcases Memory.mem_writeByte h with h | h
  · exact .inl (by omega)
  · exact .inr h

theorem Memory.mem_below {m : Memory} {n : Nat} {c : Host.Cell} : c ∈ m.below n ↔ c ∈ m ∧ c.1 < n := by
  simp [Memory.below]

/-- A byte no cell lists reads as 0. -/
theorem Memory.readByte_of_forall_lt {m : Memory} {n a : Nat} (h : ∀ c ∈ m, c.1 < n) (ha : n ≤ a) :
    m.readByte a = Memory.unlisted := by
  induction m with
  | nil => rfl
  | cons c m ih =>
    have hc : c.1 ≠ a := by have := h c (by simp); omega
    simp only [Memory.readByte, hc, if_false]
    exact ih fun d hd => h d (List.mem_cons_of_mem _ hd)

/-- Cutting off what is not there changes nothing. -/
theorem Memory.below_eq_self {m : Memory} {n : Nat} (h : ∀ c ∈ m, c.1 < n) : m.below n = m := by
  simpa [Memory.below, List.filter_eq_self] using h

/-! ### Equal bytes, equal memories -/

theorem Memory.ext_wfFrom {lo : Nat} {m m' : Memory} (h : Memory.wfFrom lo m = true) (h' : Memory.wfFrom lo m' = true)
    (heq : ∀ a, m.readByte a = m'.readByte a) : m = m' := by
  induction m generalizing lo m' with
  | nil =>
    cases m' with
    | nil => rfl
    | cons c m' =>
      rw [Memory.wfFrom_cons] at h'
      have := heq c.1
      simp only [Memory.readByte, if_true] at this
      exact absurd this.symm h'.2.1
  | cons c m ih =>
    rw [Memory.wfFrom_cons] at h
    cases m' with
    | nil =>
      have := heq c.1
      simp only [Memory.readByte, if_true] at this
      exact absurd this h.2.1
    | cons c' m' =>
      rw [Memory.wfFrom_cons] at h'
      have hkey : c.1 = c'.1 := by
        rcases Nat.lt_trichotomy c.1 c'.1 with hlt | he | hgt
        · have := heq c.1
          have hne : c'.1 ≠ c.1 := by omega
          simp only [Memory.readByte, if_true, hne, if_false] at this
          rw [Memory.readByte_of_lt h'.2.2 (by omega)] at this
          exact absurd this h.2.1
        · exact he
        · have := heq c'.1
          have hne : c.1 ≠ c'.1 := by omega
          simp only [Memory.readByte, if_true, hne, if_false] at this
          rw [Memory.readByte_of_lt h.2.2 (by omega)] at this
          exact absurd this.symm h'.2.1
      have hval : c.2 = c'.2 := by
        have := heq c.1
        simpa only [Memory.readByte, if_true, hkey.symm] using this
      have hc : c = c' := Prod.ext hkey hval
      subst hc
      refine congrArg (c :: ·) (ih h.2.2 h'.2.2 fun a => ?_)
      by_cases ha : c.1 = a
      · rw [Memory.readByte_of_lt h.2.2 (by omega), Memory.readByte_of_lt h'.2.2 (by omega)]
      · have := heq a
        simpa only [Memory.readByte, ha, if_false] using this

/-- Two canonical memories with the same bytes are the same list. -/
theorem Memory.ext_wf {m m' : Memory} (h : m.wf = true) (h' : m'.wf = true)
    (heq : ∀ a, m.readByte a = m'.readByte a) : m = m' := Memory.ext_wfFrom h h' heq

end Sys2Proof.Machine
end

