-- ==== Sys2Proof/Laws/State.lean ====
section
/-! SUPPORT. One lemma for each field of the state under each update, so that no proof unfolds a record update; and what
the answers of the block (R62, R113) leave alone. -/

namespace Sys2Proof.Machine

/-- Two states are equal when the block's three items and both ports are. -/
theorem State.eq_of_fields {s t : State} (h1 : s.storage = t.storage) (h2 : s.cap = t.cap)
    (h3 : s.bitLength = t.bitLength) (h4 : s.cmd = t.cmd) (h5 : s.rsp = t.rsp) : s = t := by
  obtain ⟨⟨_, _, _⟩, _, _⟩ := s
  obtain ⟨⟨_, _, _⟩, _, _⟩ := t
  cases h1; cases h2; cases h3; cases h4; cases h5; rfl

@[simp] theorem Buffer.constructed_storage : Buffer.constructed.storage = [] := rfl
@[simp] theorem Buffer.constructed_cap : Buffer.constructed.cap = CAP0 := rfl
@[simp] theorem Buffer.constructed_bitLength : Buffer.constructed.bitLength = 0 := rfl
@[simp] theorem State.reset_toBuffer : State.reset.toBuffer = Buffer.constructed := rfl
@[simp] theorem State.reset_cmd : State.reset.cmd = [] := rfl
@[simp] theorem State.reset_rsp : State.reset.rsp = [] := rfl

variable (s : State)

/-! ### setStorage -/

@[simp] theorem State.setStorage_storage (m : Memory) : (s.setStorage m).storage = m := rfl
@[simp] theorem State.setStorage_cap (m : Memory) : (s.setStorage m).cap = s.cap := rfl
@[simp] theorem State.setStorage_bitLength (m : Memory) : (s.setStorage m).bitLength = s.bitLength := rfl
@[simp] theorem State.setStorage_cmd (m : Memory) : (s.setStorage m).cmd = s.cmd := rfl
@[simp] theorem State.setStorage_rsp (m : Memory) : (s.setStorage m).rsp = s.rsp := rfl

/-! ### setCap -/

@[simp] theorem State.setCap_storage (c : Nat) : (s.setCap c).storage = s.storage := rfl
@[simp] theorem State.setCap_cap (c : Nat) : (s.setCap c).cap = c := rfl
@[simp] theorem State.setCap_bitLength (c : Nat) : (s.setCap c).bitLength = s.bitLength := rfl
@[simp] theorem State.setCap_cmd (c : Nat) : (s.setCap c).cmd = s.cmd := rfl
@[simp] theorem State.setCap_rsp (c : Nat) : (s.setCap c).rsp = s.rsp := rfl

/-! ### setLength -/

@[simp] theorem State.setLength_storage (n : Nat) : (s.setLength n).storage = s.storage := rfl
@[simp] theorem State.setLength_cap (n : Nat) : (s.setLength n).cap = s.cap := rfl
@[simp] theorem State.setLength_bitLength (n : Nat) : (s.setLength n).bitLength = BitVec.ofNat 32 n := rfl
@[simp] theorem State.setLength_cmd (n : Nat) : (s.setLength n).cmd = s.cmd := rfl
@[simp] theorem State.setLength_rsp (n : Nat) : (s.setLength n).rsp = s.rsp := rfl

/-! ### setCmd -/

@[simp] theorem State.setCmd_toBuffer (ws : List Word) : (s.setCmd ws).toBuffer = s.toBuffer := rfl
@[simp] theorem State.setCmd_storage (ws : List Word) : (s.setCmd ws).storage = s.storage := rfl
@[simp] theorem State.setCmd_cap (ws : List Word) : (s.setCmd ws).cap = s.cap := rfl
@[simp] theorem State.setCmd_bitLength (ws : List Word) : (s.setCmd ws).bitLength = s.bitLength := rfl
@[simp] theorem State.setCmd_cmd (ws : List Word) : (s.setCmd ws).cmd = ws := rfl
@[simp] theorem State.setCmd_rsp (ws : List Word) : (s.setCmd ws).rsp = s.rsp := rfl

/-! ### emit -/

@[simp] theorem State.emit_toBuffer (ws : List Word) : (s.emit ws).toBuffer = s.toBuffer := rfl
@[simp] theorem State.emit_storage (ws : List Word) : (s.emit ws).storage = s.storage := rfl
@[simp] theorem State.emit_cap (ws : List Word) : (s.emit ws).cap = s.cap := rfl
@[simp] theorem State.emit_bitLength (ws : List Word) : (s.emit ws).bitLength = s.bitLength := rfl
@[simp] theorem State.emit_cmd (ws : List Word) : (s.emit ws).cmd = s.cmd := rfl
@[simp] theorem State.emit_rsp (ws : List Word) : (s.emit ws).rsp = s.rsp ++ ws := rfl

/-! ### The derived readings -/

@[simp] theorem State.setStorage_len (m : Memory) : (s.setStorage m).len = s.len := rfl
@[simp] theorem State.setCap_len (c : Nat) : (s.setCap c).len = s.len := rfl
@[simp] theorem State.setCap_word (c : Nat) (w : Nat) : (s.setCap c).word w = s.word w := rfl
@[simp] theorem bitAt_setCap (c : Nat) (i : Nat) : bitAt (s.setCap c) i = bitAt s i := rfl
@[simp] theorem State.setLength_word (n : Nat) (w : Nat) : (s.setLength n).word w = s.word w := rfl
@[simp] theorem bitAt_setLength (n : Nat) (i : Nat) : bitAt (s.setLength n) i = bitAt s i := rfl
@[simp] theorem State.setCmd_len (ws : List Word) : (s.setCmd ws).len = s.len := rfl
@[simp] theorem State.setCmd_word (ws : List Word) (w : Nat) : (s.setCmd ws).word w = s.word w := rfl
@[simp] theorem bitAt_setCmd (ws : List Word) (i : Nat) : bitAt (s.setCmd ws) i = bitAt s i := rfl
@[simp] theorem State.emit_len (ws : List Word) : (s.emit ws).len = s.len := rfl
@[simp] theorem State.emit_word (ws : List Word) (w : Nat) : (s.emit ws).word w = s.word w := rfl
@[simp] theorem bitAt_emit (ws : List Word) (i : Nat) : bitAt (s.emit ws) i = bitAt s i := rfl

@[simp] theorem State.setStorage_word (m : Memory) (w : Nat) : (s.setStorage m).word w = m.readWord w := rfl

theorem State.setLength_len {n : Nat} (h : n < 2 ^ 32) : (s.setLength n).len = n := by
  simpa [State.len] using h

theorem State.setLength_self : s.setLength s.len = s := by
  simp [State.setLength, State.len]

theorem State.len_lt : s.len < 2 ^ 32 := s.bitLength.isLt

/-! ### Responses -/

@[simp] theorem respond_toBuffer (op : BitVec 8) (p : List Word) : (respond op p s).toBuffer = s.toBuffer := rfl
@[simp] theorem respond_storage (op : BitVec 8) (p : List Word) : (respond op p s).storage = s.storage := rfl
@[simp] theorem respond_cap (op : BitVec 8) (p : List Word) : (respond op p s).cap = s.cap := rfl
@[simp] theorem respond_bitLength (op : BitVec 8) (p : List Word) : (respond op p s).bitLength = s.bitLength := rfl
@[simp] theorem respond_cmd (op : BitVec 8) (p : List Word) : (respond op p s).cmd = s.cmd := rfl
@[simp] theorem respond_rsp (op : BitVec 8) (p : List Word) : (respond op p s).rsp = s.rsp ++ statusWord op okCode :: p := rfl
@[simp] theorem respond_len (op : BitVec 8) (p : List Word) : (respond op p s).len = s.len := rfl
@[simp] theorem respond_word (op : BitVec 8) (p : List Word) (w : Nat) : (respond op p s).word w = s.word w := rfl
@[simp] theorem bitAt_respond (op : BitVec 8) (p : List Word) (i : Nat) : bitAt (respond op p s) i = bitAt s i := rfl

@[simp] theorem raiseError_toBuffer (op : BitVec 8) (e : Err) : (raiseError op e s).toBuffer = s.toBuffer := rfl
@[simp] theorem raiseError_storage (op : BitVec 8) (e : Err) : (raiseError op e s).storage = s.storage := rfl
@[simp] theorem raiseError_cap (op : BitVec 8) (e : Err) : (raiseError op e s).cap = s.cap := rfl
@[simp] theorem raiseError_bitLength (op : BitVec 8) (e : Err) : (raiseError op e s).bitLength = s.bitLength := rfl
@[simp] theorem raiseError_cmd (op : BitVec 8) (e : Err) : (raiseError op e s).cmd = s.cmd := rfl
@[simp] theorem raiseError_rsp (op : BitVec 8) (e : Err) : (raiseError op e s).rsp = s.rsp ++ [statusWord op e.code] := rfl
@[simp] theorem raiseError_len (op : BitVec 8) (e : Err) : (raiseError op e s).len = s.len := rfl
@[simp] theorem raiseError_word (op : BitVec 8) (e : Err) (w : Nat) : (raiseError op e s).word w = s.word w := rfl
@[simp] theorem bitAt_raiseError (op : BitVec 8) (e : Err) (i : Nat) : bitAt (raiseError op e s) i = bitAt s i := rfl

/-! ### Construction -/

@[simp] theorem construct_toBuffer : (construct s).toBuffer = Buffer.constructed := rfl
@[simp] theorem construct_storage : (construct s).storage = [] := rfl
@[simp] theorem construct_cap : (construct s).cap = CAP0 := rfl
@[simp] theorem construct_bitLength : (construct s).bitLength = 0 := rfl
@[simp] theorem construct_cmd : (construct s).cmd = s.cmd := rfl
@[simp] theorem construct_rsp : (construct s).rsp = s.rsp := rfl
@[simp] theorem construct_len : (construct s).len = 0 := rfl

end Sys2Proof.Machine
end

