-- ==== Sys2Proof/Laws/Bits.lean ====
section
/-! SUPPORT. The laws of the word primitives (R11) bit by bit, and where a stream bit stands in the byte view (R32,
R34). -/

namespace Sys2Proof.Machine

/-! ### R11 -/

theorem shl32_toNat (v : Word) (n : Nat) : (shl32 v n).toNat = v.toNat * 2 ^ n % 2 ^ 32 := by
  simp [shl32]

theorem shr_toNat (v : Word) (n : Nat) : (shr v n).toNat = v.toNat / 2 ^ n := by
  have h : v.toNat / 2 ^ n < 2 ^ 32 := lt_of_le_of_lt (Nat.div_le_self _ _) v.isLt
  simpa [shr] using h

theorem shl32_eq (v : Word) (n : Nat) : shl32 v n = v <<< n := by
  apply BitVec.eq_of_toNat_eq
  rw [shl32_toNat, BitVec.toNat_shiftLeft, Nat.shiftLeft_eq]

theorem shr_eq (v : Word) (n : Nat) : shr v n = v >>> n := by
  apply BitVec.eq_of_toNat_eq
  rw [shr_toNat, BitVec.toNat_ushiftRight, Nat.shiftRight_eq_div_pow]

theorem getLsbD_shl32 (v : Word) (n p : Nat) :
    (shl32 v n).getLsbD p = (decide (p < 32) && !decide (p < n) && v.getLsbD (p - n)) := by
  rw [shl32_eq, BitVec.getLsbD_shiftLeft]

theorem getLsbD_shr (v : Word) (n p : Nat) : (shr v n).getLsbD p = v.getLsbD (n + p) := by
  rw [shr_eq, BitVec.getLsbD_ushiftRight]

theorem getLsbD_lowmask (n p : Nat) : (lowmask n).getLsbD p = (decide (p < 32) && decide (p < n)) := by
  simp [lowmask, BitVec.getLsbD_ofNat, Nat.testBit_two_pow_sub_one]

/-- Test 2 of R83: `shr(value, len) = 0` says that no bit at `len` or above is set. -/
theorem shr_eq_zero_iff (v : Word) (n : Nat) : shr v n = 0 ↔ ∀ p, n ≤ p → v.getLsbD p = false := by
  constructor
  · intro h p hp
    have := getLsbD_shr v n (p - n)
    rw [h, Nat.add_sub_cancel' hp] at this
    simpa using this.symm
  · intro h
    apply BitVec.eq_of_getLsbD_eq
    intro p _
    rw [getLsbD_shr, h _ (Nat.le_add_right _ _)]
    simp

/-- Masking with the `n` low-order ones gives 0 exactly when those bits are 0. -/
theorem and_lowmask_eq_zero_iff (v : Word) (n : Nat) :
    v &&& lowmask n = 0 ↔ ∀ p, p < 32 → p < n → v.getLsbD p = false := by
  constructor
  · intro h p hp hn
    have hb : (v &&& lowmask n).getLsbD p = (0 : Word).getLsbD p := by rw [h]
    rw [BitVec.getLsbD_and, getLsbD_lowmask] at hb
    simpa [hp, hn] using hb
  · intro h
    apply BitVec.eq_of_getLsbD_eq
    intro p hp
    by_cases hn : p < n
    · simp [getLsbD_lowmask, h p hp hn]
    · simp [getLsbD_lowmask, hn]

/-! ### R32 -/

theorem posOf_lt (i : Nat) : posOf i < 32 := by unfold posOf; omega

theorem wordOf_lt {i c : Nat} (h : i < c * 32) : wordOf i < c := by unfold wordOf; omega

/-! ### The byte view (R34) -/

/-- Bit `p` of a word is bit `p mod 8` of its byte `3 - p div 8`. -/
theorem Memory.getLsbD_readWord (m : Memory) (w : Nat) {p : Nat} (hp : p < 32) :
    (m.readWord w).getLsbD p = (m.readByte (4 * w + (3 - p / 8))).getLsbD (p % 8) := by
  unfold Memory.readWord
  simp only [BitVec.getLsbD_append]
  split_ifs with h1 h2 h3
  · rw [show p / 8 = 0 by omega, show p % 8 = p by omega]
  · rw [show p / 8 = 1 by omega, show p % 8 = p - 8 by omega]
  · rw [show p / 8 = 2 by omega, show p % 8 = p - 8 - 8 by omega]
  · rw [show p / 8 = 3 by omega, show p % 8 = p - 8 - 8 - 8 by omega]
    rfl

/-- Stream bit `i` is bit `7 - i mod 8` of byte `i div 8`: the stream is big-endian in the byte view. -/
theorem bitAt_eq_byte (s : State) (i : Nat) : bitAt s i = (s.storage.readByte (i / 8)).getLsbD (7 - i % 8) := by
  unfold bitAt State.word
  rw [Memory.getLsbD_readWord _ _ (posOf_lt i)]
  congr 2
  · unfold wordOf posOf; omega
  · unfold posOf; omega

/-- A stream bit as a bit of a word: bit `p` of word `w` is stream bit `32w + 31 - p`. -/
theorem word_getLsbD (s : State) (w : Nat) {p : Nat} (hp : p < 32) :
    (s.word w).getLsbD p = bitAt s (32 * w + (31 - p)) := by
  unfold bitAt wordOf posOf
  rw [show (32 * w + (31 - p)) / 32 = w by omega, show 31 - (32 * w + (31 - p)) % 32 = p by omega]

/-! ### States with the same stream bits -/

theorem byte_eq_of_bits {s t : State} {a : Nat} (h : ∀ i, i / 8 = a → bitAt s i = bitAt t i) :
    s.storage.readByte a = t.storage.readByte a := by
  apply BitVec.eq_of_getLsbD_eq
  intro p hp
  have := h (8 * a + (7 - p)) (by omega)
  rwa [bitAt_eq_byte, bitAt_eq_byte, show (8 * a + (7 - p)) / 8 = a by omega,
    show 7 - (8 * a + (7 - p)) % 8 = p by omega] at this

/-- Two canonical storages with the same stream bits, neither holding a cell at or beyond byte `n`, are the same. -/
theorem storage_ext {s t : State} {n : Nat} (hs : s.storage.wf = true) (ht : t.storage.wf = true)
    (cs : ∀ c ∈ s.storage, c.1 < n) (ct : ∀ c ∈ t.storage, c.1 < n)
    (h : ∀ i, i < 8 * n → bitAt s i = bitAt t i) : s.storage = t.storage := by
  apply Memory.ext_wf hs ht
  intro a
  by_cases ha : a < n
  · exact byte_eq_of_bits fun i hi => h i (by omega)
  · rw [Memory.readByte_of_forall_lt cs (by omega), Memory.readByte_of_forall_lt ct (by omega)]

end Sys2Proof.Machine
end

