-- ==== Sys2Proof/Laws/Ops.lean ====
section
/-! SUPPORT. What each shared operation can do, said once: the word accesses, growth, the ends of a command. -/

namespace Sys2Proof.Machine

/-! ### Word access (R38, R39) -/

theorem memRead_of_lt {w : Nat} {s : State} (h : w < s.cap) : memRead w s = .ok (s.word w) := by simp [memRead, h]

/-- If `MemRead` answers, the word exists and is the one answered. -/
theorem memRead_ok_iff {w : Nat} {s : State} {v : Word} : memRead w s = .ok v ↔ w < s.cap ∧ v = s.word w := by
  unfold memRead
  split_ifs with h <;> simp [h, eq_comm]

theorem memWrite_of_lt {w : Nat} {v : Word} {s : State} (h : w < s.cap) :
    memWrite w v s = .ok (s.setStorage (s.storage.writeWord w v)) := by simp [memWrite, h]

/-- If `MemWrite` answers, the word existed and it alone was written. -/
theorem memWrite_ok_iff {w : Nat} {v : Word} {s t : State} :
    memWrite w v s = .ok t ↔ w < s.cap ∧ t = s.setStorage (s.storage.writeWord w v) := by
  unfold memWrite
  split_ifs with h <;> simp [h, eq_comm]

/-! ### Growth (R42, R43) -/

@[simp] theorem double_cap (s : State) : (double s).cap = s.cap * 2 := rfl
@[simp] theorem double_len (s : State) : (double s).len = s.len := rfl
@[simp] theorem double_bitLength (s : State) : (double s).bitLength = s.bitLength := rfl
@[simp] theorem double_cmd (s : State) : (double s).cmd = s.cmd := rfl
@[simp] theorem double_rsp (s : State) : (double s).rsp = s.rsp := rfl
@[simp] theorem double_storage (s : State) : (double s).storage = s.storage.below (4 * s.cap) := rfl

/-- What growing leaves alone, and how far `cap` can go. -/
structure GrowsTo (s t : State) : Prop where
  doublings : ∃ k, t.cap = s.cap * 2 ^ k
  bitLength : t.bitLength = s.bitLength
  cmd : t.cmd = s.cmd
  rsp : t.rsp = s.rsp
  byte_old : ∀ a, a < 4 * s.cap → t.storage.readByte a = s.storage.readByte a
  byte_new : ∀ a, 4 * s.cap ≤ a → t.cap ≠ s.cap → t.storage.readByte a = Memory.unlisted
  same : t.cap = s.cap → t = s
  wf : s.storage.wf = true → t.storage.wf = true
  mem : ∀ c ∈ t.storage, c ∈ s.storage

theorem GrowsTo.refl (s : State) : GrowsTo s s :=
  ⟨⟨0, by simp⟩, rfl, rfl, rfl, fun _ _ => rfl, fun _ _ h => absurd rfl h, fun _ => rfl, id, fun _ => id⟩

theorem GrowsTo.of_double {s t : State} (hpos : 1 ≤ s.cap) (h : GrowsTo (double s) t) : GrowsTo s t := by
  obtain ⟨k, hk⟩ := h.doublings
  have hcap : t.cap = s.cap * 2 ^ (k + 1) := by rw [hk, double_cap, pow_succ]; ring
  have h2 : 2 ≤ 2 ^ (k + 1) := by rw [pow_succ]; have := Nat.one_le_two_pow (n := k); omega
  have hne : t.cap ≠ s.cap := by rw [hcap]; nlinarith
  refine ⟨⟨k + 1, hcap⟩, h.bitLength, h.cmd, h.rsp, fun a ha => ?_, fun a ha _ => ?_,
    fun he => absurd he hne, fun hw => h.wf (Memory.below_wf hw _), fun c hc => (Memory.mem_below.1 (h.mem c hc)).1⟩
  · rw [h.byte_old a (by rw [double_cap]; omega), double_storage, Memory.readByte_below, if_pos ha]
  · by_cases hlt : a < 4 * (double s).cap
    · rw [h.byte_old a hlt, double_storage, Memory.readByte_below, if_neg (by omega)]
    · by_cases hs : t.cap = (double s).cap
      · rw [h.same hs, double_storage, Memory.readByte_below, if_neg (by omega)]
      · exact h.byte_new a (Nat.le_of_not_lt hlt) hs

/-- Everything the loop of R42 can do from a capacity that is not 0. -/
theorem growLoop_growsTo {fuel need : Nat} {s : State} (hpos : 1 ≤ s.cap) : GrowsTo s (growLoop fuel need s) := by
  induction fuel generalizing s with
  | zero => exact GrowsTo.refl s
  | succ fuel ih =>
    unfold growLoop
    split_ifs
    · exact GrowsTo.of_double hpos (ih (by rw [double_cap]; omega))
    · exact GrowsTo.refl s

/-- Everything `Grow` can do. -/
theorem grow_growsTo {need : Nat} {s : State} (hpos : 1 ≤ s.cap) : GrowsTo s (grow need s) := growLoop_growsTo hpos

theorem grow_of_fits {need : Nat} {s : State} (h : need ≤ s.cap * 32) : grow need s = s := by
  unfold grow
  cases need with
  | zero => rfl
  | succ n => rw [growLoop, if_neg (by omega)]

theorem growLoop_fits {fuel need : Nat} {s : State} (h : need ≤ s.cap * 2 ^ fuel * 32) :
    need ≤ (growLoop fuel need s).cap * 32 := by
  induction fuel generalizing s with
  | zero => simpa [growLoop] using h
  | succ fuel ih =>
    unfold growLoop
    split_ifs with hlt
    · apply ih
      rw [double_cap]
      calc need ≤ s.cap * 2 ^ (fuel + 1) * 32 := h
        _ = s.cap * 2 * 2 ^ fuel * 32 := by rw [pow_succ]; ring
    · omega

/-- After `Grow(need)` the run fits. -/
theorem grow_fits {need : Nat} {s : State} (hpos : 1 ≤ s.cap) : need ≤ (grow need s).cap * 32 := by
  apply growLoop_fits
  have : need ≤ 2 ^ need := Nat.lt_two_pow_self.le
  nlinarith [Nat.mul_le_mul hpos this]

/-- `Grow` stops at the first capacity, reached by doubling, that holds `need` bits. -/
theorem growLoop_least {fuel need j : Nat} {s : State} (h : need ≤ s.cap * 2 ^ j * 32) :
    (growLoop fuel need s).cap ≤ s.cap * 2 ^ j := by
  induction fuel generalizing s j with
  | zero =>
    have := Nat.one_le_two_pow (n := j)
    simpa [growLoop] using Nat.le_mul_of_pos_right s.cap (by omega)
  | succ fuel ih =>
    unfold growLoop
    split_ifs with hlt
    · cases j with
      | zero => simp at h; omega
      | succ j =>
        have hd : (double s).cap * 2 ^ j = s.cap * 2 ^ (j + 1) := by rw [double_cap, pow_succ]; ring
        rw [← hd] at h ⊢
        exact ih h
    · have := Nat.one_le_two_pow (n := j)
      exact Nat.le_mul_of_pos_right s.cap (by omega)

theorem grow_least {need j : Nat} {s : State} (h : need ≤ s.cap * 2 ^ j * 32) : (grow need s).cap ≤ s.cap * 2 ^ j :=
  growLoop_least h

@[simp] theorem grow_bitLength (need : Nat) (s : State) : (grow need s).bitLength = s.bitLength := by
  unfold grow
  generalize need = fuel at *
  suffices ∀ n, (growLoop fuel n s).bitLength = s.bitLength from this _
  intro n
  induction fuel generalizing s with
  | zero => rfl
  | succ fuel ih =>
    unfold growLoop
    split_ifs
    · rw [ih, double_bitLength]
    · rfl

@[simp] theorem grow_len (need : Nat) (s : State) : (grow need s).len = s.len :=
  congrArg BitVec.toNat (grow_bitLength need s)

theorem grow_cap_le {need : Nat} {s : State} (hpos : 1 ≤ s.cap) : s.cap ≤ (grow need s).cap := by
  obtain ⟨k, hk⟩ := (grow_growsTo (need := need) hpos).doublings
  rw [hk]
  exact Nat.le_mul_of_pos_right _ (Nat.two_pow_pos k)

theorem GrowsTo.word_old {s t : State} (h : GrowsTo s t) {w : Nat} (hw : w < s.cap) : t.word w = s.word w := by
  unfold State.word Memory.readWord
  rw [h.byte_old _ (by omega), h.byte_old _ (by omega), h.byte_old _ (by omega), h.byte_old _ (by omega)]

theorem GrowsTo.word_new {s t : State} (h : GrowsTo s t) {w : Nat} (hw : s.cap ≤ w) (hne : t.cap ≠ s.cap) :
    t.word w = 0 := by
  unfold State.word Memory.readWord
  rw [h.byte_new _ (by omega) hne, h.byte_new _ (by omega) hne, h.byte_new _ (by omega) hne,
    h.byte_new _ (by omega) hne]
  rfl

theorem GrowsTo.bitAt_old {s t : State} (h : GrowsTo s t) {i : Nat} (hi : i < s.cap * 32) : bitAt t i = bitAt s i := by
  rw [bitAt_eq_byte, bitAt_eq_byte, h.byte_old _ (by omega)]

theorem GrowsTo.bitAt_new {s t : State} (h : GrowsTo s t) {i : Nat} (hi : s.cap * 32 ≤ i) (hne : t.cap ≠ s.cap) :
    bitAt t i = false := by
  rw [bitAt_eq_byte, h.byte_new _ (by omega) hne]
  simp [Memory.unlisted]

/-- If no cell stands beyond `cap`, growing shows in `cap` alone: "The hardware ... copies nothing" (R43). -/
theorem grow_eq_setCap {need : Nat} {s : State} (hs : s.storage.wf = true) (hc : ∀ c ∈ s.storage, c.1 < 4 * s.cap)
    (hpos : 1 ≤ s.cap) : grow need s = s.setCap (grow need s).cap := by
  have h := grow_growsTo (need := need) hpos
  have hst : (grow need s).storage = s.storage := by
    apply Memory.ext_wf (h.wf hs) hs
    intro a
    by_cases ha : a < 4 * s.cap
    · exact h.byte_old a ha
    · rw [Memory.readByte_of_forall_lt (fun c hm => hc c (h.mem c hm)) (by omega),
        Memory.readByte_of_forall_lt hc (by omega)]
  exact State.eq_of_fields hst rfl h.bitLength h.cmd h.rsp

/-! ### The end of a command -/

/-- If a command ends with a next state, its word accesses all existed. -/
theorem completing_next_iff {r : Except Fault State} {f : State → State} {t : State} :
    completing r f = .next t ↔ ∃ u, r = .ok u ∧ t = f u := by
  unfold completing
  cases r <;> simp [eq_comm]

theorem completing_ok (u : State) (f : State → State) : completing (.ok u) f = .next (f u) := rfl

end Sys2Proof.Machine
end

