-- ==== Sys2Proof/Laws/Block.lean ====
section
/-! SUPPORT. The word accesses, growth and the append paths take no notice of the ports: each runs on a state with words
put at its ports as it runs without them. -/

namespace Sys2Proof.Machine

/-- `s` with these words at the command port, and these sent before what it has sent. -/
def State.withPorts (c r : List Word) (s : State) : State := { s with cmd := c, rsp := r ++ s.rsp }

variable (c r : List Word) (s : State)

@[simp] theorem State.withPorts_toBuffer : (s.withPorts c r).toBuffer = s.toBuffer := rfl
@[simp] theorem State.withPorts_cmd : (s.withPorts c r).cmd = c := rfl
@[simp] theorem State.withPorts_rsp : (s.withPorts c r).rsp = r ++ s.rsp := rfl
@[simp] theorem State.withPorts_len : (s.withPorts c r).len = s.len := rfl

/-- Every state is its block with nothing at the ports, and then the ports put back. -/
theorem State.eq_alone_withPorts : s = s.toBuffer.alone.withPorts s.cmd s.rsp := by
  refine State.eq_of_fields rfl rfl rfl rfl ?_
  simp [Buffer.alone]

theorem State.emit_withPorts (ws : List Word) : (s.withPorts c r).emit ws = (s.emit ws).withPorts c r := by
  refine State.eq_of_fields rfl rfl rfl rfl ?_
  simp

theorem memRead_withPorts (w : Nat) : memRead w (s.withPorts c r) = memRead w s := rfl

theorem memWrite_withPorts (w : Nat) (v : Word) :
    memWrite w v (s.withPorts c r) = (memWrite w v s).map (State.withPorts c r) := by
  unfold memWrite
  by_cases h : w < s.cap
  · rw [if_pos h]
    exact if_pos h
  · rw [if_neg h]
    exact if_neg h

theorem grow_withPorts (need : Nat) : grow need (s.withPorts c r) = (grow need s).withPorts c r := by
  have loop : ∀ fuel (s : State), growLoop fuel need (s.withPorts c r) = (growLoop fuel need s).withPorts c r := by
    intro fuel
    induction fuel with
    | zero => exact fun _ => rfl
    | succ n ih =>
      intro s
      unfold growLoop
      by_cases h : s.cap * 32 < need
      · rw [if_pos h, ← ih]
        exact if_pos h
      · rw [if_neg h]
        exact if_neg h
  exact loop need s

/-- Two computations in a row that take no notice of the ports take none together. -/
theorem bind_withPorts {x : Except Fault State} {f g : State → Except Fault State}
    (h : ∀ s, f (s.withPorts c r) = (g s).map (State.withPorts c r)) :
    ((x.map (State.withPorts c r)) >>= f) = (x >>= g).map (State.withPorts c r) := by
  cases x with
  | error e => rfl
  | ok s => exact h s

theorem bind_word_withPorts {x : Except Fault Word} {f g : Word → Except Fault State}
    (h : ∀ v, f v = (g v).map (State.withPorts c r)) : (x >>= f) = (x >>= g).map (State.withPorts c r) := by
  cases x with
  | error e => rfl
  | ok v => exact h v

theorem merge_withPorts (v : Word) (len L : Nat) :
    merge v len L (s.withPorts c r) = (merge v len L s).map (State.withPorts c r) := by
  unfold merge
  rw [memRead_withPorts]
  split_ifs
  · exact bind_word_withPorts c r fun _ => memWrite_withPorts c r _ _ _
  · refine bind_word_withPorts c r fun _ => ?_
    rw [memWrite_withPorts]
    exact bind_withPorts c r fun _ => memWrite_withPorts c r _ _ _

theorem copyWords_withPorts (vs : List Word) (w : Nat) :
    copyWords vs w (s.withPorts c r) = (copyWords vs w s).map (State.withPorts c r) := by
  induction vs generalizing w s with
  | nil => rfl
  | cons v vs ih =>
    unfold copyWords
    rw [memWrite_withPorts]
    exact bind_withPorts c r fun _ => ih _ _

theorem shiftWords_withPorts (sh : Nat) (vs : List Word) (w : Nat) :
    shiftWords sh vs w (s.withPorts c r) = (shiftWords sh vs w s).map (State.withPorts c r) := by
  induction vs generalizing w s with
  | nil => rfl
  | cons v vs ih =>
    unfold shiftWords
    rw [memRead_withPorts]
    refine bind_word_withPorts c r fun _ => ?_
    rw [memWrite_withPorts]
    refine bind_withPorts c r fun _ => ?_
    rw [memWrite_withPorts]
    exact bind_withPorts c r fun _ => ih _ _

theorem fastcopy_withPorts (values : List Word) (len L : Nat) :
    fastcopy values len L (s.withPorts c r) = (fastcopy values len L s).map (State.withPorts c r) :=
  copyWords_withPorts c r s _ _

theorem shiftmerge_withPorts (values : List Word) (len L : Nat) :
    shiftmerge values len L (s.withPorts c r) = (shiftmerge values len L s).map (State.withPorts c r) := by
  unfold shiftmerge
  rw [shiftWords_withPorts]
  refine bind_withPorts c r fun s => ?_
  split_ifs
  · rfl
  · exact merge_withPorts c r s _ _ _

theorem readStreamBytes_withPorts (n k : Nat) : readStreamBytes n k (s.withPorts c r) = readStreamBytes n k s := by
  induction n generalizing k with
  | zero => rfl
  | succ n ih =>
    unfold readStreamBytes
    rw [ih]
    rfl

end Sys2Proof.Machine
end

