-- ==== Sys2Proof/Laws/Decode.lean ====
section
/-! SUPPORT. The laws of header words (R53) and what the decoder does for each opcode. -/

namespace Sys2Proof

/-! ### Header fields -/

@[simp] theorem headerOp_header (op : BitVec 8) (a : BitVec 24) : headerOp (header op a) = op := by
  apply BitVec.eq_of_getLsbD_eq
  intro p hp
  unfold headerOp header
  rw [BitVec.getLsbD_extractLsb', BitVec.getLsbD_append, if_neg (by omega), show 24 + p - 24 = p by omega]
  simp [hp]

@[simp] theorem headerArg_header (op : BitVec 8) (a : BitVec 24) : headerArg (header op a) = a := by
  apply BitVec.eq_of_getLsbD_eq
  intro p hp
  unfold headerArg header
  rw [BitVec.getLsbD_extractLsb', BitVec.getLsbD_append, if_pos (by omega), show 0 + p = p by omega]
  simp [hp]

/-- A header is its two fields. -/
theorem header_eta (h : Word) : header (headerOp h) (headerArg h) = h := by
  apply BitVec.eq_of_getLsbD_eq
  intro p hp
  unfold headerOp headerArg header
  rw [BitVec.getLsbD_append]
  split_ifs with hlt
  · rw [BitVec.getLsbD_extractLsb', Nat.zero_add]
    simp [hlt]
  · have h8 : p - 24 < 8 := by omega
    rw [BitVec.getLsbD_extractLsb', show 24 + (p - 24) = p by omega]
    simp [h8]

/-- A header with this opcode is built from it and its argument. -/
theorem header_of_op {h : Word} {op : BitVec 8} (hop : headerOp h = op) : h = header op (headerArg h) := by
  rw [← hop, header_eta]

/-! ### The decoder, opcode by opcode -/

theorem decode_init {h : Word} (t : List Word) (hop : headerOp h = opInit) :
    decode (h :: t) = ifNoArgument h .init t := by simp [decode, hop]

theorem decode_getbit {h : Word} (o1 : Word) (t : List Word) (hop : headerOp h = opGetbit) :
    decode (h :: o1 :: t) = ifNoArgument h (.getbit o1) t := by simp [decode, hop, opInit, opGetbit]

theorem decode_getbit_short {h : Word} (hop : headerOp h = opGetbit) : decode [h] = .incomplete := by
  simp [decode, hop, opInit, opGetbit]

theorem decode_getbytes {h : Word} (t : List Word) (hop : headerOp h = opGetbytes) :
    decode (h :: t) = ifNoArgument h .getbytes t := by simp [decode, hop, opInit, opGetbit, opGetbytes]

theorem decode_append {h : Word} (o1 : Word) (t : List Word) (hop : headerOp h = opAppend) :
    decode (h :: o1 :: t) = .command (.append (headerArg h) o1) t := by
  simp [decode, hop, opInit, opGetbit, opGetbytes, opAppend]

theorem decode_append_short {h : Word} (hop : headerOp h = opAppend) : decode [h] = .incomplete := by
  simp [decode, hop, opInit, opGetbit, opGetbytes, opAppend]

theorem decode_appendw {h : Word} (o1 : Word) (ws : List Word) (hop : headerOp h = opAppendw) :
    decode (h :: o1 :: ws) =
      if ws.length < (headerArg h).toNat then .incomplete
      else .command (.appendw o1 (ws.take (headerArg h).toNat)) (ws.drop (headerArg h).toNat) := by
  simp [decode, hop, opInit, opGetbit, opGetbytes, opAppend, opAppendw]

theorem decode_appendw_short {h : Word} (hop : headerOp h = opAppendw) : decode [h] = .incomplete := by
  simp [decode, hop, opInit, opGetbit, opGetbytes, opAppend, opAppendw]

theorem decode_length {h : Word} (t : List Word) (hop : headerOp h = opLength) :
    decode (h :: t) = ifNoArgument h .length t := by
  simp [decode, hop, opInit, opGetbit, opGetbytes, opAppend, opAppendw, opLength]

/-- The opcodes no command has (R66). -/
def reservedOp (op : BitVec 8) : Prop :=
  op ≠ opInit ∧ op ≠ opGetbit ∧ op ≠ opGetbytes ∧ op ≠ opAppend ∧ op ≠ opAppendw ∧ op ≠ opLength

theorem decode_reserved {h : Word} (t : List Word) (hop : reservedOp (headerOp h)) :
    decode (h :: t) = .illegal (headerOp h) .reservedOpcode t := by
  obtain ⟨h1, h2, h3, h4, h5, h6⟩ := hop
  simp [decode, h1, h2, h3, h4, h5, h6]

/-- Every opcode is one of the six or reserved. -/
theorem op_cases (op : BitVec 8) :
    op = opInit ∨ op = opGetbit ∨ op = opGetbytes ∨ op = opAppend ∨ op = opAppendw ∨ op = opLength ∨
      reservedOp op := by
  unfold reservedOp
  tauto

theorem ifNoArgument_zero {h : Word} (i : Instr) (rest : List Word) (ha : headerArg h = 0) :
    ifNoArgument h i rest = .command i rest := by simp [ifNoArgument, ha]

theorem ifNoArgument_nonzero {h : Word} (i : Instr) (rest : List Word) (ha : headerArg h ≠ 0) :
    ifNoArgument h i rest = .illegal (headerOp h) .nonzeroArgument rest := if_neg ha

/-! ### Packet lengths -/

theorem packetWords_two {h : Word} (hop : headerOp h = opGetbit ∨ headerOp h = opAppend) : packetWords h = 2 :=
  if_pos hop

theorem packetWords_appendw {h : Word} (hop : headerOp h = opAppendw) :
    packetWords h = 2 + (headerArg h).toNat := by
  simp [packetWords, hop, opAppendw]

theorem packetWords_one {h : Word} (h1 : headerOp h ≠ opGetbit) (h2 : headerOp h ≠ opAppend)
    (h3 : headerOp h ≠ opAppendw) : packetWords h = 1 :=
  (if_neg (not_or.2 ⟨h1, h2⟩)).trans (if_neg h3)

theorem packetWords_pos (h : Word) : 1 ≤ packetWords h := by
  unfold packetWords
  split_ifs <;> omega

end Sys2Proof
end

