-- ==== Sys2Proof/Laws/Runs.lean ====
section
/-! SUPPORT. What writing a run of bits does to the stream: the two forms of `merge` (R87), the fast copy (R98), the
shift-and-merge (R99) and the per-bit reference (R40, R41) are all described by the one relation `Wrote`, and two
writers of the same run leave the same state. -/

namespace Sys2Proof.Machine

/-- From `s` to `t` the bits at indexes `lo .. lo + n - 1` became `f 0 .. f (n - 1)` and nothing else changed. -/
structure Wrote (s t : State) (lo n : Nat) (f : Nat → Bool) : Prop where
  cap : t.cap = s.cap
  bitLength : t.bitLength = s.bitLength
  cmd : t.cmd = s.cmd
  rsp : t.rsp = s.rsp
  wf : t.storage.wf = true
  mem : (∀ c ∈ s.storage, c.1 < 4 * s.cap) → ∀ c ∈ t.storage, c.1 < 4 * s.cap
  run : ∀ k, k < n → bitAt t (lo + k) = f k
  rest : ∀ i, i < lo ∨ lo + n ≤ i → bitAt t i = bitAt s i

/-- Every bit from `lo` to the end of the storage is 0: what ZERO-TAIL (R21) says of `lo = bitLength`. -/
def zeroFrom (s : State) (lo : Nat) : Prop := ∀ i, lo ≤ i → i < s.cap * 32 → bitAt s i = false

theorem Wrote.none {s : State} (h : s.storage.wf = true) (lo : Nat) (f : Nat → Bool) : Wrote s s lo 0 f :=
  ⟨rfl, rfl, rfl, rfl, h, id, fun _ hk => absurd hk (Nat.not_lt_zero _), fun _ _ => rfl⟩

theorem Wrote.congr {s t : State} {lo n : Nat} {f g : Nat → Bool} (h : Wrote s t lo n f)
    (hfg : ∀ k, k < n → f k = g k) : Wrote s t lo n g :=
  { h with run := fun k hk => (h.run k hk).trans (hfg k hk) }

/-- One run after another is one run. -/
theorem Wrote.trans {s t u : State} {lo n m : Nat} {f g : Nat → Bool} (h : Wrote s t lo n f)
    (h' : Wrote t u (lo + n) m g) : Wrote s u lo (n + m) fun k => if k < n then f k else g (k - n) where
  cap := h'.cap.trans h.cap
  bitLength := h'.bitLength.trans h.bitLength
  cmd := h'.cmd.trans h.cmd
  rsp := h'.rsp.trans h.rsp
  wf := h'.wf
  mem hs := by
    have := h'.mem (by rw [h.cap]; exact h.mem hs)
    rwa [h.cap] at this
  run k hk := by
    split_ifs with hlt
    · rw [h'.rest _ (by omega), h.run k hlt]
    · have := h'.run (k - n) (by omega)
      rwa [show lo + n + (k - n) = lo + k by omega] at this
  rest i hi := by rw [h'.rest i (by omega), h.rest i (by omega)]

/-- Behind a run the storage is as zero as before. -/
theorem Wrote.zeroFrom {s t : State} {lo n : Nat} {f : Nat → Bool} (h : Wrote s t lo n f) (hz : zeroFrom s lo) :
    zeroFrom t (lo + n) := by
  intro i h1 h2
  rw [h.rest i (.inr h1)]
  exact hz i (by omega) (by rwa [h.cap] at h2)

/-- Two writers of the same run into the same canonical storage leave the same state. -/
theorem Wrote.unique {s t t' : State} {lo n : Nat} {f : Nat → Bool} (hc : ∀ c ∈ s.storage, c.1 < 4 * s.cap)
    (h : Wrote s t lo n f) (h' : Wrote s t' lo n f) : t = t' := by
  have hst : t.storage = t'.storage := by
    refine storage_ext h.wf h'.wf (h.mem hc) (h'.mem hc) fun i _ => ?_
    by_cases hi : i < lo ∨ lo + n ≤ i
    · rw [h.rest i hi, h'.rest i hi]
    · have e := (h.run (i - lo) (by omega)).trans (h'.run (i - lo) (by omega)).symm
      rwa [show lo + (i - lo) = i by omega] at e
  exact State.eq_of_fields hst (h.cap.trans h'.cap.symm) (h.bitLength.trans h'.bitLength.symm)
    (h.cmd.trans h'.cmd.symm) (h.rsp.trans h'.rsp.symm)

/-! ### Writing one word -/

theorem bitAt_writeWord {s : State} (h : s.storage.wf = true) (w : Nat) (v : Word) (i : Nat) :
    bitAt (s.setStorage (s.storage.writeWord w v)) i = if wordOf i = w then v.getLsbD (posOf i) else bitAt s i := by
  unfold bitAt
  rw [State.setStorage_word, Memory.readWord_writeWord h]
  split_ifs <;> rfl

/-- Writing one existing word changes at most its 32 stream bits. -/
theorem writeWord_wrote {s : State} (h : s.storage.wf = true) {w : Nat} (hw : w < s.cap) (v : Word) :
    Wrote s (s.setStorage (s.storage.writeWord w v)) (32 * w) 32 fun k => v.getLsbD (31 - k) where
  cap := rfl
  bitLength := rfl
  cmd := rfl
  rsp := rfl
  wf := Memory.writeWord_wf h w v
  mem hs c hc := by
    rcases Memory.mem_writeWord hc with hc | hc
    · omega
    · exact hs c hc
  run k hk := by
    rw [bitAt_writeWord h, if_pos (by unfold wordOf; omega)]
    unfold posOf
    rw [show (32 * w + k) % 32 = k by omega]
  rest i hi := by rw [bitAt_writeWord h, if_neg (by unfold wordOf; omega)]

/-- Writing an existing word whose bits outside `lo .. lo + n - 1` are as before writes those bits alone. -/
theorem Wrote.narrow {s t : State} {lo n lo' n' : Nat} {f g : Nat → Bool} (h : Wrote s t lo n f) (hlo : lo ≤ lo')
    (hn : lo' + n' ≤ lo + n) (hin : ∀ k, k < n' → f (lo' - lo + k) = g k)
    (hout : ∀ k, k < n → lo + k < lo' ∨ lo' + n' ≤ lo + k → f k = bitAt s (lo + k)) : Wrote s t lo' n' g :=
  { h with
    run := fun k hk => by
      have := h.run (lo' - lo + k) (by omega)
      rw [show lo + (lo' - lo + k) = lo' + k by omega] at this
      rw [this, hin k hk]
    rest := fun i hi => by
      by_cases hw : i < lo ∨ lo + n ≤ i
      · exact h.rest i hw
      · have := h.run (i - lo) (by omega)
        rw [show lo + (i - lo) = i by omega] at this
        rw [this, hout (i - lo) (by omega) (by omega), show lo + (i - lo) = i by omega] }

/-! ### merge (R87) -/

/-- Everything `merge` can do: a run that fits is written at `L`, most significant bit first, and nothing else
changes (R84, R87, R89, R90). -/
theorem merge_wrote {s : State} {value : Word} {len L : Nat} (hwf : s.storage.wf = true) (hz : zeroFrom s L)
    (h1 : 1 ≤ len) (h31 : len ≤ 31) (hv : shr value len = 0) (hfit : L + len ≤ s.cap * 32) :
    ∃ t, merge value len L s = .ok t ∧ Wrote s t L len fun k => value.getLsbD (len - 1 - k) := by
  rw [shr_eq_zero_iff] at hv
  have hw : wordOf L < s.cap := by unfold wordOf; omega
  have hL : L = 32 * wordOf L + used L := by unfold wordOf used; omega
  have hu : used L < 32 := by unfold used; omega
  have hr : remain L = 32 - used L := rfl
  have hcur : ∀ k, k < 32 → (s.word (wordOf L)).getLsbD (31 - k) = bitAt s (32 * wordOf L + k) := fun k hk => by
    rw [word_getLsbD s _ (by omega), show 31 - (31 - k) = k by omega]
  have hcur0 : ∀ k, k < 32 → used L ≤ k → (s.word (wordOf L)).getLsbD (31 - k) = false := fun k hk hk' => by
    rw [hcur k hk]
    exact hz _ (by omega) (by omega)
  unfold merge
  split_ifs with hle
  · rw [memRead_of_lt hw]
    refine ⟨_, memWrite_of_lt hw, (writeWord_wrote hwf hw _).narrow (by omega) (by omega) ?_ ?_⟩
    · intro k hk
      rw [show L - 32 * wordOf L + k = used L + k by omega, BitVec.getLsbD_or, getLsbD_shl32,
        hcur0 _ (by omega) (by omega)]
      have a : 31 - (used L + k) < 32 := by omega
      have b : ¬ 31 - (used L + k) < remain L - len := by omega
      simp only [a, b, decide_true, decide_false, Bool.not_false, Bool.true_and, Bool.false_or]
      congr 1
      omega
    · intro k hk ho
      rw [BitVec.getLsbD_or, getLsbD_shl32, hcur k hk]
      rcases ho with ho | ho
      · rw [hv (31 - k - (remain L - len)) (by omega)]
        simp
      · have b : 31 - k < remain L - len := by omega
        simp [b]
  · have hw1 : wordOf L + 1 < s.cap := by omega
    have hA := (writeWord_wrote hwf hw (s.word (wordOf L) ||| shr value (len - remain L))).narrow (lo' := L)
      (n' := remain L) (g := fun k => value.getLsbD (len - 1 - k)) (by omega) (by omega)
      (by
        intro k hk
        rw [show L - 32 * wordOf L + k = used L + k by omega, BitVec.getLsbD_or, getLsbD_shr,
          hcur0 _ (by omega) (by omega), Bool.false_or]
        congr 1
        omega)
      (by
        intro k hk ho
        rw [BitVec.getLsbD_or, getLsbD_shr, hcur k hk, hv (len - remain L + (31 - k)) (by omega)]
        simp)
    have hz1 := hA.zeroFrom hz
    have hB := (writeWord_wrote hA.wf (w := wordOf L + 1) (by rw [State.setStorage_cap]; exact hw1)
      (shl32 value (32 - (len - remain L)))).narrow (lo' := L + remain L) (n' := len - remain L)
      (g := fun k => value.getLsbD (len - remain L - 1 - k)) (by omega) (by omega)
      (by
        intro k hk
        rw [show L + remain L - 32 * (wordOf L + 1) + k = k by omega, getLsbD_shl32]
        have a : 31 - k < 32 := by omega
        have b : ¬ 31 - k < 32 - (len - remain L) := by omega
        simp only [a, b, decide_true, decide_false, Bool.not_false, Bool.true_and]
        congr 1
        omega)
      (by
        intro k hk ho
        have hzb := hz1 (32 * (wordOf L + 1) + k) (by omega) (by rw [State.setStorage_cap]; omega)
        rw [hzb, getLsbD_shl32]
        have b : 31 - k < 32 - (len - remain L) := by omega
        simp [b])
    have hAB := hA.trans hB
    rw [show remain L + (len - remain L) = len by omega] at hAB
    refine ⟨_, ?_, hAB.congr fun k hk => ?_⟩
    · rw [memRead_of_lt hw]
      change (memWrite _ _ s).bind _ = _
      rw [memWrite_of_lt hw]
      exact memWrite_of_lt (by rw [State.setStorage_cap]; exact hw1)
    · split_ifs with hlt
      · rfl
      · congr 1
        omega

/-! ### The fast path (R98) -/

/-- Everything `copyWords` can do: whole words one after the other from a word boundary. -/
theorem copyWords_wrote {vs : List Word} {w : Nat} {s : State} (hwf : s.storage.wf = true)
    (hfit : w + vs.length ≤ s.cap) :
    ∃ t, copyWords vs w s = .ok t ∧
      Wrote s t (32 * w) (32 * vs.length) fun k => (vs.getD (k / 32) 0).getLsbD (31 - k % 32) := by
  induction vs generalizing w s with
  | nil => exact ⟨s, rfl, by simpa using Wrote.none hwf _ _⟩
  | cons v vs ih =>
    rw [List.length_cons] at hfit
    have hA := writeWord_wrote hwf (w := w) (by omega) v
    obtain ⟨t, ht, hB⟩ := ih (w := w + 1) hA.wf (by rw [State.setStorage_cap]; omega)
    refine ⟨t, ?_, ?_⟩
    · unfold copyWords
      rw [memWrite_of_lt (by omega)]
      exact ht
    · rw [show 32 * (w + 1) = 32 * w + 32 by ring] at hB
      have := hA.trans hB
      rw [List.length_cons, show 32 * (vs.length + 1) = 32 + 32 * vs.length by ring]
      refine this.congr fun k _ => ?_
      split_ifs with hlt
      · rw [show k / 32 = 0 by omega, show k % 32 = k by omega]
        rfl
      · rw [show k / 32 = (k - 32) / 32 + 1 by omega, show (k - 32) % 32 = k % 32 by omega]
        rfl

/-! ### The shift-and-merge path (R99) -/

/-- Everything `shiftWords` can do: whole source words one after the other from `sh` bits into a word. -/
theorem shiftWords_wrote {sh : Nat} {vs : List Word} {w : Nat} {s : State} (h1 : 1 ≤ sh) (h31 : sh ≤ 31)
    (hwf : s.storage.wf = true) (hz : zeroFrom s (32 * w + sh)) (hfit : w + vs.length < s.cap) :
    ∃ t, shiftWords sh vs w s = .ok t ∧
      Wrote s t (32 * w + sh) (32 * vs.length) fun k => (vs.getD (k / 32) 0).getLsbD (31 - k % 32) := by
  induction vs generalizing w s with
  | nil => exact ⟨s, rfl, by simpa using Wrote.none hwf _ _⟩
  | cons v vs ih =>
    rw [List.length_cons] at hfit
    have hw : w < s.cap := by omega
    have hw1 : w + 1 < s.cap := by omega
    have hcur : ∀ k, k < 32 → (s.word w).getLsbD (31 - k) = bitAt s (32 * w + k) := fun k hk => by
      rw [word_getLsbD s _ (by omega), show 31 - (31 - k) = k by omega]
    have hA := (writeWord_wrote hwf hw (s.word w ||| shr v sh)).narrow (lo' := 32 * w + sh) (n' := 32 - sh)
      (g := fun k => v.getLsbD (31 - k)) (by omega) (by omega)
      (by
        intro k hk
        rw [show 32 * w + sh - 32 * w + k = sh + k by omega, BitVec.getLsbD_or, getLsbD_shr, hcur _ (by omega),
          hz _ (by omega) (by omega), Bool.false_or]
        congr 1
        omega)
      (by
        intro k hk ho
        rw [BitVec.getLsbD_or, getLsbD_shr, hcur k hk, BitVec.getLsbD_of_ge v _ (by omega), Bool.or_false])
    have hz1 := hA.zeroFrom hz
    rw [show 32 * w + sh + (32 - sh) = 32 * (w + 1) by omega] at hz1
    have hB := (writeWord_wrote hA.wf (w := w + 1) (by rw [State.setStorage_cap]; exact hw1)
      (shl32 v (32 - sh))).narrow (lo' := 32 * (w + 1)) (n' := sh) (g := fun k => v.getLsbD (sh - 1 - k)) (by omega)
      (by omega)
      (by
        intro k hk
        rw [show 32 * (w + 1) - 32 * (w + 1) + k = k by omega, getLsbD_shl32]
        have a : 31 - k < 32 := by omega
        have b : ¬ 31 - k < 32 - sh := by omega
        simp only [a, b, decide_true, decide_false, Bool.not_false, Bool.true_and]
        congr 1
        omega)
      (by
        intro k hk ho
        rw [hz1 _ (by omega) (by rw [State.setStorage_cap]; omega), getLsbD_shl32]
        have b : 31 - k < 32 - sh := by omega
        simp [b])
    have hz2 := hB.zeroFrom hz1
    obtain ⟨t, ht, hC⟩ := ih (w := w + 1) hB.wf hz2
      (by rw [State.setStorage_cap, State.setStorage_cap]; omega)
    refine ⟨t, ?_, ?_⟩
    · unfold shiftWords
      rw [memRead_of_lt hw]
      change (memWrite _ _ s).bind _ = _
      rw [memWrite_of_lt hw]
      change (memWrite _ _ _).bind _ = _
      rw [memWrite_of_lt (by rw [State.setStorage_cap]; exact hw1)]
      exact ht
    · rw [show 32 * (w + 1) = 32 * w + sh + (32 - sh) by omega] at hB hC
      rw [show 32 * w + sh + (32 - sh) + sh = 32 * w + sh + (32 - sh) + sh by rfl] at hC
      have hAB := hA.trans hB
      rw [show 32 * w + sh + (32 - sh) + sh = 32 * w + sh + (32 - sh + sh) by ring] at hC
      have := hAB.trans hC
      rw [List.length_cons, show 32 * (vs.length + 1) = 32 - sh + sh + 32 * vs.length by omega]
      refine this.congr fun k _ => ?_
      rw [show 32 - sh + sh = 32 by omega]
      split_ifs with hlt hlt'
      · rw [show k / 32 = 0 by omega, show k % 32 = k by omega]
        rfl
      · rw [show k / 32 = 0 by omega, show k % 32 = k by omega]
        change v.getLsbD _ = v.getLsbD _
        congr 1
        omega
      · rw [show k / 32 = (k - 32) / 32 + 1 by omega, show (k - 32) % 32 = k % 32 by omega]
        rfl

/-! ### The bulk append's two paths -/

/-- The source bit `j` of APPENDW (R95). -/
def sourceBit (values : List Word) (j : Nat) : Bool := (sourceWord values (j / 32)).getLsbD (31 - j % 32)

theorem getD_take {values : List Word} {n k : Nat} (h : k < n) : (values.take n).getD k 0 = values.getD k 0 := by
  simp [List.getD_eq_getElem?_getD, h]

/-- What test 2 of R94 leaves: in a clean source the unused bits of the partial final word are 0. -/
theorem sourceBit_of_clean {values : List Word} {len j : Nat} (hc : dirtyTail len values = false) (hj : len ≤ j)
    (hj' : j < 32 * wordsFor len) : sourceBit values j = false := by
  unfold wordsFor at hj'
  unfold dirtyTail at hc
  have hrem : len % 32 ≠ 0 := by omega
  have hand : sourceWord values (len / 32) &&& lowmask (32 - len % 32) = 0 := by
    by_contra hne
    simp [hrem] at hc
    exact hne hc
  rw [and_lowmask_eq_zero_iff] at hand
  unfold sourceBit
  rw [show j / 32 = len / 32 by omega]
  exact hand _ (by omega) (by omega)

/-- Everything `fastcopy` can do (R98). -/
theorem fastcopy_wrote {s : State} {values : List Word} {len L : Nat} (hwf : s.storage.wf = true)
    (hz : zeroFrom s L) (hlen : len ≤ 32 * values.length) (hc : dirtyTail len values = false) (hs : used L = 0)
    (hfit : L + len ≤ s.cap * 32) :
    ∃ t, fastcopy values len L s = .ok t ∧ Wrote s t L len (sourceBit values) := by
  have hL : L = 32 * wordOf L := by unfold wordOf; unfold used at hs; omega
  have hn : (values.take (wordsFor len)).length = wordsFor len := by
    rw [List.length_take]; unfold wordsFor; omega
  obtain ⟨t, ht, h⟩ := copyWords_wrote (vs := values.take (wordsFor len)) (w := wordOf L) hwf
    (by rw [hn]; unfold wordsFor; omega)
  refine ⟨t, ht, ?_⟩
  rw [hn] at h
  have h' := h.congr (g := sourceBit values) fun k hk => by
    rw [getD_take (by omega)]
    rfl
  refine h'.narrow (by omega) (by unfold wordsFor; omega) (fun k _ => ?_) fun k hk ho => ?_
  · rw [show L - 32 * wordOf L + k = k by omega]
  · rw [sourceBit_of_clean hc (by omega) hk, hz _ (by omega) (by unfold wordsFor at hk; omega)]

/-- Everything `shiftmerge` can do (R99). -/
theorem shiftmerge_wrote {s : State} {values : List Word} {len L : Nat} (hwf : s.storage.wf = true)
    (hz : zeroFrom s L) (hlen : len ≤ 32 * values.length) (hs : used L ≠ 0)
    (hfit : L + len ≤ s.cap * 32) :
    ∃ t, shiftmerge values len L s = .ok t ∧ Wrote s t L len (sourceBit values) := by
  have hL : L = 32 * wordOf L + used L := by unfold wordOf used; omega
  have hu : used L < 32 := by unfold used; omega
  have hn : (values.take (len / 32)).length = len / 32 := by rw [List.length_take]; omega
  obtain ⟨t, ht, h⟩ := shiftWords_wrote (sh := used L) (vs := values.take (len / 32)) (w := wordOf L) (by omega)
    (by omega) hwf (by rwa [← hL]) (by rw [hn]; omega)
  rw [hn, ← hL] at h
  have h' := h.congr (g := sourceBit values) fun k hk => by
    rw [getD_take (by omega)]
    rfl
  unfold shiftmerge
  rw [ht]
  by_cases hrem : len % 32 = 0
  · refine ⟨t, by simp [hrem], ?_⟩
    rwa [show 32 * (len / 32) = len by omega] at h'
  · obtain ⟨u, hu', hm⟩ := merge_wrote (s := t) (value := shr (sourceWord values (len / 32)) (32 - len % 32))
      (len := len % 32) (L := L + 32 * (len / 32)) h.wf (h.zeroFrom hz) (by omega) (by omega)
      (by
        rw [shr_eq_zero_iff]
        intro p hp
        rw [getLsbD_shr]
        exact BitVec.getLsbD_of_ge _ _ (by omega))
      (by rw [h.cap]; omega)
    refine ⟨u, ?_, ?_⟩
    · change (if len % 32 = 0 then _ else _) = _
      rw [if_neg hrem, hu']
    · have := h'.trans hm
      rw [show 32 * (len / 32) + len % 32 = len by omega] at this
      refine this.congr fun k hk => ?_
      split_ifs with hlt
      · rfl
      · rw [getLsbD_shr]
        unfold sourceBit
        rw [show k / 32 = len / 32 by omega]
        congr 1
        omega

/-! ### The per-bit reference (R40, R41) -/

theorem getLsbD_bit (b : Bool) (p : Nat) : (if b then (1 : Word) else 0).getLsbD p = (b && decide (p = 0)) := by
  cases b <;> simp [BitVec.getLsbD_one]

/-- One bit of the reference is a run of one bit, then the length. -/
theorem refAppendBit_eq {s : State} (b : Bool) (hwf : s.storage.wf = true) (hz : zeroFrom s s.len)
    (hfit : s.len < s.cap * 32) :
    ∃ t, Wrote s t s.len 1 (fun _ => b) ∧ refAppendBit s b = t.setLength (s.len + 1) := by
  refine ⟨_, (writeWord_wrote hwf (wordOf_lt hfit) _).narrow ?_ ?_ ?_ ?_, rfl⟩
  · unfold wordOf; omega
  · unfold wordOf; omega
  · intro k hk
    rw [BitVec.getLsbD_or, getLsbD_shl32, getLsbD_bit]
    have e : 31 - (s.len - 32 * wordOf s.len + k) = posOf s.len := by unfold wordOf posOf; omega
    have hb : (s.word (wordOf s.len)).getLsbD (posOf s.len) = false := hz s.len le_rfl hfit
    rw [e, hb]
    simp [posOf_lt]
  · intro k hk ho
    rw [BitVec.getLsbD_or, getLsbD_shl32, getLsbD_bit, word_getLsbD _ _ (by omega), show 31 - (31 - k) = k by omega]
    have hne : 31 - k ≠ posOf s.len := by unfold posOf; unfold wordOf at ho; omega
    by_cases hlt : 31 - k < posOf s.len
    · simp [hlt]
    · have : ¬ 31 - k - posOf s.len = 0 := by omega
      simp [this]

/-- Everything the reference append does: its bits at `bitLength`, then the length (R41). -/
theorem refAppend_eq {s : State} (bits : List Bool) (hwf : s.storage.wf = true) (hz : zeroFrom s s.len)
    (hfit : s.len + bits.length ≤ s.cap * 32) (h32 : s.len + bits.length < 2 ^ 32) :
    ∃ t, Wrote s t s.len bits.length (fun k => bits.getD k false) ∧
      refAppend s bits = t.setLength (s.len + bits.length) := by
  induction bits generalizing s with
  | nil => exact ⟨s, Wrote.none hwf _ _, (State.setLength_self s).symm⟩
  | cons b bits ih =>
    rw [List.length_cons] at hfit h32
    obtain ⟨t, ht, he⟩ := refAppendBit_eq b hwf hz (by omega)
    have hlen : (t.setLength (s.len + 1)).len = s.len + 1 := State.setLength_len _ (by omega)
    have hz' : zeroFrom (t.setLength (s.len + 1)) (t.setLength (s.len + 1)).len := by
      rw [hlen]
      exact ht.zeroFrom hz
    obtain ⟨u, hu, hr⟩ := ih (s := t.setLength (s.len + 1)) ht.wf hz'
      (by rw [hlen, State.setLength_cap, ht.cap]; omega) (by rw [hlen]; omega)
    rw [hlen] at hu hr
    -- the same run written with the old length in place
    have hu' : Wrote t (u.setLength s.len) (s.len + 1) bits.length (fun k => bits.getD k false) :=
      { cap := hu.cap, bitLength := by rw [ht.bitLength]; simp [State.len], cmd := hu.cmd, rsp := hu.rsp, wf := hu.wf,
        mem := hu.mem, run := hu.run, rest := hu.rest }
    refine ⟨u.setLength s.len, ?_, ?_⟩
    · have := ht.trans hu'
      rw [List.length_cons, Nat.add_comm bits.length 1]
      refine this.congr fun k _ => ?_
      split_ifs with hlt
      · rw [show k = 0 by omega]
        rfl
      · obtain ⟨j, rfl⟩ : ∃ j, k = j + 1 := ⟨k - 1, by omega⟩
        rfl
    · change refAppend (refAppendBit s b) bits = _
      rw [he, hr, List.length_cons, show s.len + 1 + bits.length = s.len + (bits.length + 1) by ring]
      rfl

theorem runBits_length (len : Nat) (value : Word) : (runBits len value).length = len := by simp [runBits]

theorem runBits_getD {len k : Nat} (value : Word) (h : k < len) :
    (runBits len value).getD k false = value.getLsbD (len - 1 - k) := by
  simp [runBits, h]

theorem sourceBits_length (len : Nat) (values : List Word) : (sourceBits len values).length = len := by
  simp [sourceBits]

theorem sourceBits_getD {len k : Nat} (values : List Word) (h : k < len) :
    (sourceBits len values).getD k false = sourceBit values k := by
  simp [sourceBits, sourceBit, h]

end Sys2Proof.Machine
end

