-- ==== Sys2Proof/Laws/Meanings.lean ====
section
/-! SUPPORT. What each meaning and each step can do, said once: the provers cite these instead of unfolding a
meaning. -/

namespace Sys2Proof.Machine

/-! ### The tests of the appends -/

/-- Every way the tests of APPEND end (R83). -/
theorem checkAppend_cases (cfg : Config) (len : Nat) (value : Word) (L : Nat) :
    (31 < len ∧ checkAppend cfg len value L = some .invalidArgument) ∨
    (len ≤ 31 ∧ shr value len ≠ 0 ∧ checkAppend cfg len value L = some .invalidArgument) ∨
    (len ≤ 31 ∧ shr value len = 0 ∧ cfg.maxLen < L + len ∧ checkAppend cfg len value L = some .capacityExhausted) ∨
    (len ≤ 31 ∧ shr value len = 0 ∧ L + len ≤ cfg.maxLen ∧ checkAppend cfg len value L = none) := by
  unfold checkAppend
  rw [LMAX1]
  split_ifs with h1 h2 h3
  · exact .inl ⟨h1, rfl⟩
  · exact .inr (.inl ⟨by omega, h2, rfl⟩)
  · exact .inr (.inr (.inl ⟨by omega, not_not.1 h2, h3, rfl⟩))
  · exact .inr (.inr (.inr ⟨by omega, not_not.1 h2, by omega, rfl⟩))

theorem checkAppend_none_iff {cfg : Config} {len : Nat} {value : Word} {L : Nat} :
    checkAppend cfg len value L = none ↔ len ≤ 31 ∧ shr value len = 0 ∧ L + len ≤ cfg.maxLen := by
  rcases checkAppend_cases cfg len value L with ⟨h, e⟩ | ⟨h, h', e⟩ | ⟨h, h', h'', e⟩ | ⟨h, h', h'', e⟩ <;> rw [e]
  · exact ⟨fun g => (by cases g), fun g => absurd g.1 (by omega)⟩
  · exact ⟨fun g => (by cases g), fun g => absurd g.2.1 h'⟩
  · exact ⟨fun g => (by cases g), fun g => absurd g.2.2 (by omega)⟩
  · exact ⟨fun _ => ⟨h, h', h''⟩, fun _ => rfl⟩

/-- Test 2 of R83 as R83 reads it: `value < 2^len`. -/
theorem shr_eq_zero_iff_lt (v : Word) (n : Nat) : shr v n = 0 ↔ v.toNat < 2 ^ n := by
  rw [← BitVec.toNat_inj, shr_toNat]
  simp

/-- Every way the tests of APPENDW end (R94). -/
theorem checkAppendw_cases (cfg : Config) (len : Nat) (values : List Word) (L : Nat) :
    (32 * values.length < len ∧ checkAppendw cfg len values L = some .invalidArgument) ∨
    (len ≤ 32 * values.length ∧ dirtyTail len values = true ∧
      checkAppendw cfg len values L = some .invalidArgument) ∨
    (len ≤ 32 * values.length ∧ dirtyTail len values = false ∧ cfg.maxLen < L + len ∧
      checkAppendw cfg len values L = some .capacityExhausted) ∨
    (len ≤ 32 * values.length ∧ dirtyTail len values = false ∧ L + len ≤ cfg.maxLen ∧
      checkAppendw cfg len values L = none) := by
  unfold checkAppendw
  split_ifs with h1 h2 h3
  · exact .inl ⟨h1, rfl⟩
  · exact .inr (.inl ⟨by omega, h2, rfl⟩)
  · exact .inr (.inr (.inl ⟨by omega, by simpa using h2, h3, rfl⟩))
  · exact .inr (.inr (.inr ⟨by omega, by simpa using h2, by omega, rfl⟩))

theorem checkAppendw_none_iff {cfg : Config} {len : Nat} {values : List Word} {L : Nat} :
    checkAppendw cfg len values L = none ↔
      len ≤ 32 * values.length ∧ dirtyTail len values = false ∧ L + len ≤ cfg.maxLen := by
  rcases checkAppendw_cases cfg len values L with ⟨h, e⟩ | ⟨h, h', e⟩ | ⟨h, h', h'', e⟩ | ⟨h, h', h'', e⟩ <;> rw [e]
  · exact ⟨fun g => (by cases g), fun g => absurd g.1 (by omega)⟩
  · exact ⟨fun g => (by cases g), fun g => absurd g.2.1 (by rw [h']; simp)⟩
  · exact ⟨fun g => (by cases g), fun g => absurd g.2.2 (by omega)⟩
  · exact ⟨fun _ => ⟨h, h', h''⟩, fun _ => rfl⟩

/-- Test 2 of R94 as R94 reads it, on the number the word is. -/
theorem dirtyTail_iff (len : Nat) (values : List Word) :
    dirtyTail len values = true ↔
      len % 32 ≠ 0 ∧ (sourceWord values (len / 32)).toNat % 2 ^ (32 - len % 32) ≠ 0 := by
  have key : ∀ (v : Word) (n : Nat), n ≤ 32 → (v &&& lowmask n = 0 ↔ v.toNat % 2 ^ n = 0) := by
    intro v n hn
    rw [← BitVec.toNat_inj, BitVec.toNat_and]
    have : (lowmask n).toNat = 2 ^ n - 1 := by
      have : 2 ^ n ≤ 2 ^ 32 := Nat.pow_le_pow_right (by norm_num) hn
      unfold lowmask
      rw [BitVec.toNat_ofNat, Nat.mod_eq_of_lt (by omega)]
    rw [this, Nat.and_two_pow_sub_one_eq_mod]
    rfl
  unfold dirtyTail
  simp only [Bool.and_eq_true, decide_eq_true_eq]
  rw [Ne, Ne, key _ _ (by omega)]

/-! ### The meanings -/

/-- If APPEND answers a next state, it answered an error, had nothing to append, or merged its run. -/
theorem appendUnder_next_cases {cfg : Config} {len : BitVec 24} {value : Word} {s t : State}
    (h : appendUnder cfg len value s = .next t) :
    (∃ e, checkAppend cfg len.toNat value s.len = some e ∧ t = raiseError opAppend e s) ∨
    (checkAppend cfg len.toNat value s.len = none ∧ len.toNat = 0 ∧ t = respond opAppend [] s) ∨
    (checkAppend cfg len.toNat value s.len = none ∧ len.toNat ≠ 0 ∧
      ∃ u, merge value len.toNat s.len (grow (s.len + len.toNat) s) = .ok u ∧
        t = respond opAppend [] (u.setLength (s.len + len.toNat))) := by
  unfold appendUnder at h
  split at h
  · rename_i e he
    exact .inl ⟨e, he, (Host.Outcome.next.inj h).symm⟩
  · rename_i he
    split_ifs at h with h0
    · exact .inr (.inl ⟨he, h0, (Host.Outcome.next.inj h).symm⟩)
    · exact .inr (.inr ⟨he, h0, completing_next_iff.1 h⟩)

/-- If APPENDW answers a next state, it answered an error, had nothing to append, or wrote its run by one of its two
paths. -/
theorem appendwUnder_next_cases {cfg : Config} {len : Word} {values : List Word} {s t : State}
    (h : appendwUnder cfg len values s = .next t) :
    (∃ e, checkAppendw cfg len.toNat values s.len = some e ∧ t = raiseError opAppendw e s) ∨
    (checkAppendw cfg len.toNat values s.len = none ∧ len.toNat = 0 ∧ t = respond opAppendw [] s) ∨
    (checkAppendw cfg len.toNat values s.len = none ∧ len.toNat ≠ 0 ∧
      ∃ u, (if used s.len = 0 then fastcopy values len.toNat s.len (grow (s.len + len.toNat) s)
          else shiftmerge values len.toNat s.len (grow (s.len + len.toNat) s)) = .ok u ∧
        t = respond opAppendw [] (u.setLength (s.len + len.toNat))) := by
  unfold appendwUnder at h
  split at h
  · rename_i e he
    exact .inl ⟨e, he, (Host.Outcome.next.inj h).symm⟩
  · rename_i he
    split_ifs at h with h0
    · exact .inr (.inl ⟨he, h0, (Host.Outcome.next.inj h).symm⟩)
    all_goals exact .inr (.inr ⟨he, h0, by rename_i hu; simpa only [hu, if_true, if_false] using completing_next_iff.1 h⟩)

/-- If GETBIT answers a next state, it answered Range or the bit of a word that exists. -/
theorem execGetbit_next_cases {index : Word} {s t : State} (h : execGetbit index s = .next t) :
    (s.len ≤ index.toNat ∧ t = raiseError opGetbit .range s) ∨
    (index.toNat < s.len ∧ wordOf index.toNat < s.cap ∧
      t = respond opGetbit [shr (s.word (wordOf index.toNat)) (posOf index.toNat) &&& 1] s) := by
  unfold execGetbit at h
  split_ifs at h with hlt
  · split at h
    · rename_i v hv
      obtain ⟨hw, rfl⟩ := memRead_ok_iff.1 hv
      exact .inr ⟨hlt, hw, (Host.Outcome.next.inj h).symm⟩
    · cases h
  · exact .inl ⟨by omega, (Host.Outcome.next.inj h).symm⟩

/-- If GETBYTES answers a next state, it answered InvalidState or the bytes it read. -/
theorem execGetbytes_next_cases {s t : State} (h : execGetbytes s = .next t) :
    (s.len % 8 ≠ 0 ∧ t = raiseError opGetbytes .invalidState s) ∨
    (s.len % 8 = 0 ∧ ∃ bytes, readStreamBytes (s.len / 8) 0 s = .ok bytes ∧
      t = respond opGetbytes (BitVec.ofNat 32 (s.len / 8) :: packBytes bytes) s) := by
  unfold execGetbytes at h
  split_ifs at h with h8
  · split at h
    · rename_i bytes hb
      exact .inr ⟨h8, bytes, hb, (Host.Outcome.next.inj h).symm⟩
    · cases h
  · exact .inl ⟨h8, (Host.Outcome.next.inj h).symm⟩

/-- The bytes GETBYTES reads where their words exist: those of the byte view, from byte `k` on. -/
theorem readStreamBytes_ok {n k : Nat} {s : State} (h : k + n ≤ 4 * s.cap) :
    readStreamBytes n k s = .ok ((List.range' k n).map s.storage.readByte) := by
  induction n generalizing k with
  | zero => rfl
  | succ n ih =>
    unfold readStreamBytes readStreamByte
    rw [memRead_of_lt (by omega), ih (by omega), List.range'_succ, List.map_cons]
    have hb : (shr (s.word (k / 4)) (24 - 8 * (k % 4))).setWidth 8 = s.storage.readByte k := by
      apply BitVec.eq_of_getLsbD_eq
      intro p hp
      rw [BitVec.getLsbD_setWidth, getLsbD_shr]
      unfold State.word
      rw [Memory.getLsbD_readWord _ _ (by omega), show 4 * (k / 4) + (3 - (24 - 8 * (k % 4) + p) / 8) = k by omega,
        show (24 - 8 * (k % 4) + p) % 8 = p by omega]
      simp [hp]
    rw [← hb]
    rfl

/-! ### The step -/

/-- If a step answers a next state, the block waited, answered an illegal packet or ran a command. -/
theorem stepWith_next_cases {run : Instr → State → Host.Outcome State Fault Refusal} {s t : State}
    (h : stepWith run s = .next t) :
    (decode s.cmd = .incomplete ∧ t = s) ∨
    (∃ op why rest, decode s.cmd = .illegal op why rest ∧ t = raiseError op .illegalCommand (s.setCmd rest)) ∨
    (∃ i rest, decode s.cmd = .command i rest ∧ run i (s.setCmd rest) = .next t) := by
  unfold stepWith at h
  split at h
  · rename_i hd
    exact .inl ⟨hd, (Host.Outcome.next.inj h).symm⟩
  · rename_i op why rest hd
    exact .inr (.inl ⟨op, why, rest, hd, (Host.Outcome.next.inj h).symm⟩)
  · rename_i i rest hd
    exact .inr (.inr ⟨i, rest, hd, h⟩)

theorem stepWith_of_command {run : Instr → State → Host.Outcome State Fault Refusal} {s : State} {i : Instr}
    {rest : List Word} (h : decode s.cmd = .command i rest) : stepWith run s = run i (s.setCmd rest) := by
  simp [stepWith, h]

theorem stepWith_of_illegal {run : Instr → State → Host.Outcome State Fault Refusal} {s : State} {op : BitVec 8}
    {why : Illegal} {rest : List Word} (h : decode s.cmd = .illegal op why rest) :
    stepWith run s = answerIllegal op (s.setCmd rest) := by
  simp [stepWith, h]

theorem stepWith_of_incomplete {run : Instr → State → Host.Outcome State Fault Refusal} {s : State}
    (h : decode s.cmd = .incomplete) : stepWith run s = .next s := by
  simp [stepWith, h]

end Sys2Proof.Machine
end

