-- ==== Sys2Proof/Laws/PerInstr.lean ====
section
/-! SUPPORT. The families of statements made command by command. -/

namespace Sys2Proof.Laws

/-- The packet of a well-formed command begins with a header that has the command's opcode and tells the packet's
length (R53, R56, R57). -/
def PacketShape.Statement (i : Instr) : Prop :=
  i.wf = true → ∃ h t, encode i = h :: t ∧ headerOp h = opcode i ∧ (encode i).length = packetWords h

theorem PacketShape.init : PacketShape.Statement .init := fun _ =>
  ⟨_, _, rfl, headerOp_header _ _, by rw [packetWords_one] <;> simp [encode, opInit, opGetbit, opAppend, opAppendw]⟩

theorem PacketShape.getbit (index : Word) : PacketShape.Statement (.getbit index) := fun _ =>
  ⟨_, _, rfl, headerOp_header _ _, by rw [packetWords_two] <;> simp [encode]⟩

theorem PacketShape.getbytes : PacketShape.Statement .getbytes := fun _ =>
  ⟨_, _, rfl, headerOp_header _ _, by
    rw [packetWords_one] <;> simp [encode, opGetbytes, opGetbit, opAppend, opAppendw]⟩

theorem PacketShape.append (len : BitVec 24) (value : Word) : PacketShape.Statement (.append len value) := fun _ =>
  ⟨_, _, rfl, headerOp_header _ _, by rw [packetWords_two] <;> simp [encode]⟩

theorem PacketShape.appendw (len : Word) (values : List Word) : PacketShape.Statement (.appendw len values) := by
  intro hwf
  have hle : values.length ≤ 2 ^ 24 - 1 := of_decide_eq_true hwf
  refine ⟨_, _, rfl, headerOp_header _ _, ?_⟩
  rw [packetWords_appendw (headerOp_header _ _), headerArg_header, BitVec.toNat_ofNat,
    Nat.mod_eq_of_lt (by omega)]
  simp [encode]
  omega

theorem PacketShape.length : PacketShape.Statement .length := fun _ =>
  ⟨_, _, rfl, headerOp_header _ _, by
    rw [packetWords_one] <;> simp [encode, opLength, opGetbit, opAppend, opAppendw]⟩

end Sys2Proof.Laws
end

