-- ==== Sys2Proof/Tests/Slice0.lean ====
section
/-! SUPPORT. The model's own tests. Every expected word is from spec/; the comment above a test names the vector of
95_test_vectors.md it takes it from. The witness theorems show states and operands that meet the hypotheses of a
statement, each clause at a boundary value. -/

namespace Sys2Proof.Tests

open Sys2Proof Sys2Proof.Machine

/-! ## Helpers -/

/-- The state `(L, cap, cells)` with no words on either stream. -/
def buf (L cap : Nat) (cells : Memory) : State :=
  { storage := cells, cap := cap, bitLength := BitVec.ofNat 32 L, cmd := [], rsp := [] }

/-- The state `(3, cap, A0000000)` of S2. -/
def three (cap : Nat) : State := buf 3 cap [(0, 0xA0)]

/-- The state after these responses. -/
def sent (s : State) (ws : List Word) : State := { s with rsp := ws }

/-- The next state an outcome holds. -/
def nextOf (o : Host.Outcome State Fault Refusal) : Option State :=
  match o with
  | .next s => some s
  | .fault _ => none
  | .refused _ => none

/-- The instance of Program 6. -/
def cfg40 : Config := { maxLen := 40 }

theorem nextOf_some {o : Host.Outcome State Fault Refusal} {t : State} (h : nextOf o = some t) : o = .next t := by
  cases o with
  | next s => exact congrArg _ (Option.some.inj h)
  | fault f => cases h
  | refused r => cases h

/-! ## Well-formedness: the check refuses -/

/-- R59: one source word more than `COUNTMAX` has no encoding. -/
theorem test_wf_refuses_too_many_words (v len : Word) :
    (Instr.appendw len (List.replicate (2 ^ 24) v)).wf = false := by
  simp only [Instr.wf, List.length_replicate]
  decide

/-- R59: `COUNTMAX` source words have one. -/
theorem test_wf_countmax (v len : Word) : (Instr.appendw len (List.replicate (2 ^ 24 - 1) v)).wf = true := by
  simp only [Instr.wf, List.length_replicate]
  decide

/-! ## Decoding: packets as the vectors write them -/

/-- I1. -/
theorem test_decode_init : decode [0x01000000] = .command .init [] := by decide
/-- B2. -/
theorem test_decode_getbit : decode [0x02000000, 0x0000001E] = .command (.getbit 30) [] := by decide
/-- Program 1, step 7. -/
theorem test_decode_getbytes : decode [0x03000000] = .command .getbytes [] := by decide
/-- A9. -/
theorem test_decode_append : decode [0x0400001B, 0x05A5A5A5] = .command (.append 27 0x05A5A5A5) [] := by decide
/-- A18: the widest `a` field, a legal encoding of an illegal argument (R58). -/
theorem test_decode_append_wide : decode [0x04FFFFFF, 0] = .command (.append 16777215 0) [] := by decide
/-- W2, followed by the header of the next packet. -/
theorem test_decode_appendw :
    decode [0x05000002, 0x00000030, 0xDEADBEEF, 0x12340000, 0x06000000] =
      .command (.appendw 48 [0xDEADBEEF, 0x12340000]) [0x06000000] := by decide
/-- W11. -/
theorem test_decode_appendw_empty : decode [0x05000000, 0x00000000] = .command (.appendw 0 []) [] := by decide
/-- L1. -/
theorem test_decode_length : decode [0x06000000] = .command .length [] := by decide
/-- K1, K2, K3: reserved opcodes, the all-zero and the all-ones word among them. -/
theorem test_decode_reserved :
    decode [0x00000000] = .illegal 0x00 .reservedOpcode [] ∧ decode [0x07000000] = .illegal 0x07 .reservedOpcode [] ∧
      decode [0xFFFFFFFF] = .illegal 0xFF .reservedOpcode [] := by decide
/-- I4, K4, Y10, K5: a non-zero `a` field; GETBIT takes its operand word with it. -/
theorem test_decode_nonzero_argument :
    decode [0x01000001] = .illegal 0x01 .nonzeroArgument [] ∧
      decode [0x02000001, 0] = .illegal 0x02 .nonzeroArgument [] ∧
      decode [0x03000001] = .illegal 0x03 .nonzeroArgument [] ∧
      decode [0x06000001] = .illegal 0x06 .nonzeroArgument [] := by decide
/-- K7, and each longer packet short of its last word (R57, R61). -/
theorem test_decode_incomplete :
    decode [] = .incomplete ∧ decode [0x02000000] = .incomplete ∧ decode [0x04000003] = .incomplete ∧
      decode [0x05000000] = .incomplete ∧ decode [0x05000002, 0, 0] = .incomplete := by decide
/-- Section 2.8. -/
theorem test_packet_words :
    packetWords 0x01000000 = 1 ∧ packetWords 0x02ABCDEF = 2 ∧ packetWords 0x04FFFFFF = 2 ∧ packetWords 0x05000000 = 2 ∧
      packetWords 0x05000040 = 66 ∧ packetWords 0x05FFFFFF = 16777217 ∧ packetWords 0x06000000 = 1 ∧
      packetWords 0xFF000000 = 1 := by decide

/-- The `match` words of spec/opcode_table.json, operand words zero. -/
theorem test_decode_table_words :
    decodeTableWord 32 0x01000000 = some .init ∧ decodeTableWord 32 0x02000000 = some (.getbit 0) ∧
      decodeTableWord 32 0x03000000 = some .getbytes ∧ decodeTableWord 32 0x04000000 = some (.append 0 0) ∧
      decodeTableWord 32 0x05000002 = some (.appendw 0 [0, 0]) ∧ decodeTableWord 32 0x06000000 = some .length := by
  decide

/-- LENGTH as the first command after reset: L1. -/
theorem test_first_command_after_reset :
    nextOf (step (State.reset.withFetchWord 32 0x06000000)) = some (sent State.reset [0x06000000, 0]) := by decide

/-! ## One command at a time -/

/-- I2. -/
theorem test_init_empties_buffer :
    nextOf (exec .init (buf 35 64 [(3, 3), (4, 0xA0)])) = some (sent State.reset [0x01000000]) := by decide
/-- I4. -/
theorem test_init_nonzero_argument :
    nextOf (step ((three 64).deliver [0x01000001])) = some (sent (three 64) [0x01000005]) := by decide
/-- B5. -/
theorem test_getbit_last_bit :
    nextOf (exec (.getbit 34) (buf 35 64 [(3, 3), (4, 0xA0)])) =
      some (sent (buf 35 64 [(3, 3), (4, 0xA0)]) [0x02000000, 1]) := by decide
/-- B6. -/
theorem test_getbit_at_length :
    nextOf (exec (.getbit 35) (buf 35 64 [(3, 3), (4, 0xA0)])) =
      some (sent (buf 35 64 [(3, 3), (4, 0xA0)]) [0x02000001]) := by decide
/-- Y6. -/
theorem test_getbytes_six_bytes :
    nextOf (exec .getbytes (buf 48 64 [(0, 0xD5), (1, 0xE6), (2, 0xF5), (3, 0xA5), (4, 0xA5), (5, 0xA5)])) =
      some (sent (buf 48 64 [(0, 0xD5), (1, 0xE6), (2, 0xF5), (3, 0xA5), (4, 0xA5), (5, 0xA5)])
        [0x03000000, 6, 0xD5E6F5A5, 0xA5A50000]) := by decide
/-- Y7. -/
theorem test_getbytes_unaligned : nextOf (exec .getbytes (buf 5 64 [])) = some (sent (buf 5 64 []) [0x03000003]) := by
  decide
/-- A22: growth and split in one command. -/
theorem test_append_grows_and_splits :
    nextOf (exec (.append 5 0x1F) (buf 2046 64 [])) =
      some (sent (buf 2051 128 [(255, 3), (256, 0xE0)]) [0x04000000]) := by decide
/-- Program 6, steps 2 and 3. -/
theorem test_append_at_maxlen :
    nextOf (execUnder cfg40 (.append 10 0x3FF) (buf 31 64 [(0, 0xFF), (1, 0xFF), (2, 0xFF), (3, 0xFE)])) =
        some (sent (buf 31 64 [(0, 0xFF), (1, 0xFF), (2, 0xFF), (3, 0xFE)]) [0x04000004]) ∧
      nextOf (execUnder cfg40 (.append 9 0x1FF) (buf 31 64 [(0, 0xFF), (1, 0xFF), (2, 0xFF), (3, 0xFE)])) =
        some (sent (buf 40 64 [(0, 0xFF), (1, 0xFF), (2, 0xFF), (3, 0xFF), (4, 0xFF)]) [0x04000000]) := by decide
/-- W5: shift-and-merge with a partial final word. -/
theorem test_appendw_shift_and_merge :
    nextOf (exec (.appendw 48 [0xDEADBEEF, 0x12340000]) (three 64)) =
      some (sent (buf 51 64 [(0, 0xBB), (1, 0xD5), (2, 0xB7), (3, 0xDD), (4, 0xE2), (5, 0x46), (6, 0x80)])
        [0x05000000]) := by decide
/-- W15: the fast path; the second source word is ignored. -/
theorem test_appendw_fast_path :
    nextOf (exec (.appendw 16 [0xABCD0000, 0xFFFFFFFF]) State.reset) =
      some (sent (buf 16 64 [(0, 0xAB), (1, 0xCD)]) [0x05000000]) := by decide
/-- L4: the greatest length of the default instance. -/
theorem test_length_at_maxlen :
    nextOf (exec .length (buf 2147483647 67108864 [])) =
      some (sent (buf 2147483647 67108864 []) [0x06000000, 0x7FFFFFFF]) := by decide
/-- K6: an illegal word is answered and the stream stays in step. -/
theorem test_illegal_word_keeps_step :
    nextOf (step ((three 64).deliver [0x00000000, 0x06000000])) =
      some (sent ((three 64).deliver [0x06000000]) [0x00000005]) := by decide

/-! ## States that meet the invariants -/

theorem phys_ge (cfg : Config) : 64 ≤ cfg.phys := by
  have h : max 64 ((cfg.maxLen + 31) / 32) ≤ cfg.phys := Nat.le_pow_clog (by omega) _
  exact le_trans (le_max_left _ _) h

theorem phys_std : Config.std.phys = 2 ^ 26 := by
  have h : max 64 ((Config.std.maxLen + 31) / 32) = 2 ^ 26 := by decide
  unfold Config.phys
  rw [h, Nat.clog_pow 2 26 (by omega)]

/-- A buffer of zeros meets the invariants of its instance. -/
theorem inv_zeros {cfg : Config} {L cap : Nat} (k : Nat) (hc : cap = 2 ^ k) (hlow : 64 ≤ cap) (hphys : cap ≤ cfg.phys)
    (hL : L ≤ cap * 32) (hmax : L ≤ cfg.maxLen) (hreg : L < 2 ^ 32) : Inv cfg (buf L cap []) := by
  have hlen : (buf L cap []).len = L := Nat.mod_eq_of_lt hreg
  refine ⟨⟨by rw [hlen]; exact hL, by rw [hlen]; exact hmax⟩, fun i _ _ => ?_, ⟨⟨k, hc⟩, hlow, hphys⟩, rfl, ?_⟩
  · rw [bitAt_eq_byte]
    exact BitVec.getLsbD_zero
  · intro c hm
    cases hm

/-- The same on the default instance. -/
theorem inv_zeros_std {L cap : Nat} (k : Nat) (hk : 6 ≤ k ∧ k ≤ 26) (hc : cap = 2 ^ k) (hL : L ≤ cap * 32)
    (hmax : L ≤ 2147483647) : Inv Config.std (buf L cap []) := by
  refine inv_zeros k hc ?_ ?_ hL hmax (Nat.lt_of_le_of_lt hmax (by decide))
  · rw [hc]
    show 2 ^ 6 ≤ 2 ^ k
    exact Nat.pow_le_pow_right (by omega) hk.1
  · rw [hc, phys_std]
    exact Nat.pow_le_pow_right (by omega) hk.2

theorem inv_zeros_64 (L : Nat) (hL : L ≤ 2048) : Inv Config.std (buf L 64 []) :=
  inv_zeros_std 6 (by omega) (by decide) (by omega) (by omega)

theorem inv_zeros_max (L : Nat) (hL : L ≤ 2147483647) : Inv Config.std (buf L 67108864 []) :=
  inv_zeros_std 26 (by omega) (by decide) (by omega) hL

theorem three_bits (cap i : Nat) (h : 3 ≤ i) : bitAt (three cap) i = false := by
  rw [bitAt_eq_byte]
  by_cases h0 : i / 8 = 0
  · have hb : (three cap).storage.readByte (i / 8) = 0xA0 := by
      show (if 0 = i / 8 then (0xA0 : Byte) else 0) = 0xA0
      rw [if_pos h0.symm]
    have hi : i < 8 := by omega
    rw [hb]
    interval_cases i <;> rfl
  · have hb : (three cap).storage.readByte (i / 8) = 0 := by
      show (if 0 = i / 8 then (0xA0 : Byte) else 0) = 0
      rw [if_neg (Ne.symm h0)]
    rw [hb]
    exact BitVec.getLsbD_zero

theorem inv_three (k : Nat) (hk : 6 ≤ k ∧ k ≤ 26) : Inv Config.std (three (2 ^ k)) := by
  have h6 : 2 ^ 6 ≤ 2 ^ k := Nat.pow_le_pow_right (by omega) hk.1
  have hlen : (three (2 ^ k)).len = 3 := rfl
  have hcap : (three (2 ^ k)).cap = 2 ^ k := rfl
  refine ⟨⟨by rw [hlen, hcap]; omega, by rw [hlen]; decide⟩, fun i hi _ => three_bits _ i hi, ⟨⟨k, rfl⟩, ?_, ?_⟩,
    rfl, ?_⟩
  · rw [hcap]
    omega
  · rw [hcap, phys_std]
    exact Nat.pow_le_pow_right (by omega) hk.2
  · intro c hm
    have : c = (0, 0xA0) := List.mem_singleton.1 hm
    rw [hcap, this]
    show 0 < 4 * 2 ^ k
    omega

/-! ## Witnesses: the hypotheses of each statement can be met -/

theorem test_witness_ResetIsConstructedBuffer : ∃ w, w < 64 ∧ ¬ w + 1 < 64 := ⟨63, by omega⟩

theorem test_witness_InitConstructsEmptyBuffer :
    (∃ t, exec .init (three 64) = .next t) ∧
      ∃ (a : BitVec 24) (rest : List Word) (s : State), a ≠ 0 ∧ s.cmd = header 0x01 a :: rest :=
  ⟨⟨_, rfl⟩, 1, [], (three 64).setCmd [0x01000001], by decide⟩

theorem test_witness_GetbitReadsOneBit :
    ((three 64).len ≤ (three 64).cap * 32 ∧ (2 : Word).toNat < (three 64).len) ∧
      (three 64).len ≤ (3 : Word).toNat ∧
      ((1 : BitVec 24) ≠ 0 ∧ ((three 64).setCmd [0x02000001, 0]).cmd = header 0x02 1 :: 0 :: []) := by decide

theorem test_witness_GetbytesReadsWholeStream :
    ((buf 2048 64 []).len ≤ (buf 2048 64 []).cap * 32 ∧ (buf 2048 64 []).len % 8 = 0) ∧ (buf 5 64 []).len % 8 ≠ 0 ∧
      ((1 : BitVec 24) ≠ 0 ∧ ((three 64).setCmd [0x03000001]).cmd = header 0x03 1 :: []) := by decide

theorem test_witness_GetbytesPayloadIsStorageWords :
    Inv Config.std (buf 40 64 []) ∧ (buf 40 64 []).len % 8 = 0 :=
  ⟨inv_zeros_64 _ (by omega), by decide⟩

theorem test_witness_LengthReadsBitLength :
    (1 : BitVec 24) ≠ 0 ∧ ((three 64).setCmd [0x06000001]).cmd = header 0x06 1 :: [] := by decide

theorem test_witness_ReadsArePure :
    (∃ t, exec (.getbit 2) (three 64) = .next t) ∧ (∃ t, exec .getbytes (buf 8 64 []) = .next t) ∧
      ∃ t, exec .length (three 64) = .next t := ⟨⟨_, rfl⟩, ⟨_, rfl⟩, _, rfl⟩

theorem test_witness_AppendEqualsPerBitReference :
    31 < (32 : BitVec 24).toNat ∧
      ((31 : BitVec 24).toNat ≤ 31 ∧ 2 ^ (31 : BitVec 24).toNat ≤ (0x80000000 : Word).toNat) ∧
      ((1 : BitVec 24).toNat ≤ 31 ∧ (1 : Word).toNat < 2 ^ (1 : BitVec 24).toNat ∧
        Config.std.maxLen < (buf 2147483647 67108864 []).len + (1 : BitVec 24).toNat) ∧
      ((buf 2147483646 67108864 []).len + (1 : BitVec 24).toNat ≤ Config.std.maxLen ∧
        Inv Config.std (buf 2147483646 67108864 [])) :=
  ⟨by decide, by decide, by decide, by decide, inv_zeros_max _ (by omega)⟩

theorem test_witness_AppendMergesWords :
    Inv Config.std (buf 30 64 []) ∧
      ((2 : BitVec 24).toNat ≤ remain (buf 30 64 []).len ∧ (3 : Word).toNat < 2 ^ (2 : BitVec 24).toNat) ∧
      (remain (buf 30 64 []).len < (3 : BitVec 24).toNat ∧ (7 : Word).toNat < 2 ^ (3 : BitVec 24).toNat) ∧
      1 ≤ (2 : BitVec 24).toNat ∧ (3 : BitVec 24).toNat ≤ 31 ∧
      (buf 30 64 []).len + (3 : BitVec 24).toNat ≤ Config.std.maxLen :=
  ⟨inv_zeros_64 _ (by omega), by decide⟩

/-- The word of the run is word 1: byte 3 lies below it, byte 8 after it. -/
theorem test_witness_AppendFrame :
    (∃ t, exec (.append 3 5) (buf 32 64 []) = .next t) ∧ 3 < 4 * wordOf (buf 32 64 []).len ∧
      4 * wordsFor ((buf 32 64 []).len + (3 : BitVec 24).toNat) ≤ 8 ∧ 8 < 4 * (buf 32 64 []).cap ∧
      (∃ t, exec (.append 0 0) (buf 2048 64 []) = .next t) := ⟨⟨_, rfl⟩, by decide, by decide, by decide, _, rfl⟩

theorem test_witness_AppendGrowsAtMostOnce :
    Inv Config.std (buf 2046 64 []) ∧ (5 : BitVec 24).toNat ≤ 31 ∧ (31 : Word).toNat < 2 ^ (5 : BitVec 24).toNat ∧
      (buf 2046 64 []).len + (5 : BitVec 24).toNat ≤ Config.std.maxLen ∧
      remain (buf 2046 64 []).len < (5 : BitVec 24).toNat ∧
      Inv Config.std (buf 2048 64 []) ∧ (0 : Word).toNat < 2 ^ (0 : BitVec 24).toNat :=
  ⟨inv_zeros_64 _ (by omega), by decide, by decide, by decide, by decide, inv_zeros_64 _ (by omega), by decide⟩

theorem test_witness_AppendReadsBack :
    Inv Config.std (three 64) ∧ (31 : BitVec 24).toNat ≤ 31 ∧
      (0x7FFFFFFF : Word).toNat < 2 ^ (31 : BitVec 24).toNat ∧
      (three 64).len + (31 : BitVec 24).toNat ≤ Config.std.maxLen ∧ 30 < (31 : BitVec 24).toNat ∧ 2 < (three 64).len :=
  ⟨inv_three 6 (by omega), by decide⟩

theorem test_witness_AppendwEqualsPerBitReference :
    ([] : List Word).length ≤ COUNTMAX ∧ 32 * [(0xDEADBEEF : Word)].length < (33 : Word).toNat ∧
      ((1 : Word).toNat ≤ 32 * [(1 : Word)].length ∧ (1 : Word).toNat % 32 ≠ 0 ∧
        ([(1 : Word)].getD ((1 : Word).toNat / 32) 0).toNat % 2 ^ (32 - (1 : Word).toNat % 32) ≠ 0) ∧
      ((1 : Word).toNat ≤ 32 * [(0x80000000 : Word)].length ∧
        ([(0x80000000 : Word)].getD ((1 : Word).toNat / 32) 0).toNat % 2 ^ (32 - (1 : Word).toNat % 32) = 0 ∧
        Config.std.maxLen < (buf 2147483647 67108864 []).len + (1 : Word).toNat) ∧
      (buf 2147483646 67108864 []).len + (1 : Word).toNat ≤ Config.std.maxLen ∧
      Inv Config.std (buf 2147483646 67108864 []) :=
  ⟨by decide, by decide, by decide, by decide, by decide, inv_zeros_max _ (by omega)⟩

theorem test_witness_FastCopyStoresSourceWords :
    Inv Config.std (buf 32 64 []) ∧ used (buf 32 64 []).len = 0 ∧ 1 ≤ (33 : Word).toNat ∧
      checkAppendw Config.std (33 : Word).toNat [0xDEADBEEF, 0x80000000] (buf 32 64 []).len = none ∧
      1 < wordsFor (33 : Word).toNat ∧ 0 < wordOf (buf 32 64 []).len :=
  ⟨inv_zeros_64 _ (by omega), by decide⟩

theorem test_witness_ShiftMergeSplitsSourceWords :
    Inv Config.std (buf 63 64 []) ∧ used (buf 63 64 []).len ≠ 0 ∧ 1 ≤ (32 : Word).toNat ∧
      checkAppendw Config.std (32 : Word).toNat [0xFFFFFFFF] (buf 63 64 []).len = none ∧
      0 < (32 : Word).toNat / 32 ∧ (32 : Word).toNat % 32 = 0 ∧ 0 < wordOf (buf 63 64 []).len :=
  ⟨inv_zeros_64 _ (by omega), by decide⟩

theorem test_witness_AppendwFrame :
    (∃ t, exec (.appendw 3 [0xE0000000]) (buf 32 64 []) = .next t) ∧ 3 < 4 * wordOf (buf 32 64 []).len ∧
      4 * wordsFor ((buf 32 64 []).len + (3 : Word).toNat) ≤ 8 ∧ 8 < 4 * (buf 32 64 []).cap ∧
      (∃ t, exec (.appendw 0 []) (buf 2048 64 []) = .next t) := ⟨⟨_, rfl⟩, by decide, by decide, by decide, _, rfl⟩

theorem test_witness_AppendwIgnoresUnusedSourceWords :
    (16 : Word).toNat ≤ 32 * [(0xABCD0000 : Word), 0xFFFFFFFF].length ∧
      (16 : Word).toNat ≤ 32 * [(0xABCD0000 : Word)].length ∧
      [(0xABCD0000 : Word), 0xFFFFFFFF].take (wordsFor (16 : Word).toNat) =
        [(0xABCD0000 : Word)].take (wordsFor (16 : Word).toNat) := by decide

theorem test_witness_AppendwEqualsSingleAppends :
    Inv Config.std (three 64) ∧
      checkAppendw Config.std (48 : Word).toNat [0xDEADBEEF, 0x12340000] (three 64).len = none :=
  ⟨inv_three 6 (by omega), by decide⟩

theorem test_witness_AppendsExtendWrittenStream :
    Inv Config.std (three 64) ∧ checkAppend Config.std (31 : BitVec 24).toNat 0x7FFFFFFF (three 64).len = none ∧
      checkAppendw Config.std (48 : Word).toNat [0xDEADBEEF, 0x12340000] (three 64).len = none :=
  ⟨inv_three 6 (by omega), by decide, by decide⟩

theorem test_witness_MaxlenIsReachedExactly :
    cfg40.legal ∧ Inv cfg40 (buf 31 64 []) ∧
      ((10 : BitVec 24).toNat ≤ 31 ∧ (1023 : Word).toNat < 2 ^ (10 : BitVec 24).toNat ∧
        cfg40.maxLen < (buf 31 64 []).len + (10 : BitVec 24).toNat) ∧
      ((511 : Word).toNat < 2 ^ (9 : BitVec 24).toNat ∧ (buf 31 64 []).len + (9 : BitVec 24).toNat = cfg40.maxLen) ∧
      ((10 : Word).toNat ≤ 32 * [(0xFFC00000 : Word)].length ∧ dirtyTail (10 : Word).toNat [0xFFC00000] = false ∧
        cfg40.maxLen < (buf 31 64 []).len + (10 : Word).toNat) ∧
      (dirtyTail (9 : Word).toNat [0xFF800000] = false ∧ (buf 31 64 []).len + (9 : Word).toNat = cfg40.maxLen) :=
  ⟨by decide, inv_zeros 6 (by decide) (by omega) (phys_ge _) (by omega) (by decide) (by omega), by decide⟩

theorem test_witness_DecodeEncodeRoundTrip :
    (Instr.appendw 33 [0xDEADBEEF, 0x80000000]).wf = true ∧ (Instr.append 16777215 0).wf = true := by decide

theorem test_witness_DecodedPacketIsItsEncoding :
    decode [0x05000001, 0x00000021, 0xDEADBEEF, 0x06000000] = .command (.appendw 33 [0xDEADBEEF]) [0x06000000] := by
  decide

theorem test_witness_PacketLengthFromHeader :
    (headerOp 0x02000000 = 0x02 ∧ headerOp 0x04000000 = 0x04 ∧ headerOp 0x05000000 = 0x05) ∧
      (headerOp 0x06000000 ≠ 0x02 ∧ headerOp 0x06000000 ≠ 0x04 ∧ headerOp 0x06000000 ≠ 0x05) ∧
      [(0x05000002 : Word), 0, 0].length < packetWords 0x05000002 ∧
      packetWords 0x05000002 ≤ [(0x05000002 : Word), 0, 0, 0].length := by decide

theorem test_witness_ReservedOpcodeIsIllegal :
    headerOp 0x00FFFFFF = 0x00 ∧ 7 ≤ (headerOp 0x07000000).toNat ∧ ¬ 7 ≤ (headerOp 0x06FFFFFF).toNat ∧
      ((three 64).setCmd [0x07000000]).cmd = 0x07000000 :: [] := by decide

theorem test_witness_NonzeroArgumentIsIllegal :
    ((three 64).setCmd [0x02000001, 0]).cmd = 0x02000001 :: [0] ∧
      packetWords 0x02000001 ≤ [(0x02000001 : Word), 0].length ∧
      (headerOp 0x01000001 = 0x01 ∧ headerOp 0x02000001 = 0x02 ∧ headerOp 0x03000001 = 0x03 ∧
        headerOp 0x06FFFFFF = 0x06) ∧
      headerArg 0x02000001 ≠ 0 ∧ headerArg 0x06FFFFFF ≠ 0 ∧
      (headerOp 0x04000020 = 0x04 ∧ packetWords 0x04000020 ≤ [(0x04000020 : Word), 0].length) ∧
      (headerOp 0x05000001 = 0x05 ∧ packetWords 0x05000001 ≤ [(0x05000001 : Word), 0, 0].length) := by decide

theorem test_witness_IncompletePacketWaits :
    (three 64).cmd = [] ∧ ((three 64).setCmd [0x05000002, 0, 0]).cmd = 0x05000002 :: [0, 0] ∧
      [(0x05000002 : Word), 0, 0].length < packetWords 0x05000002 ∧
      packetWords 0x05000002 ≤ [(0x05000002 : Word), 0, 0].length + [(0 : Word)].length := by decide

theorem test_witness_StepRunsDecodedCommand :
    (Instr.append 3 5).wf = true ∧
      (State.reset.setCmd [0x04000003, 5, 0x06000000]).cmd = encode (.append 3 5) ++ [0x06000000] := by decide

theorem test_witness_StreamRunsCommandsInOrder :
    (∀ i ∈ [Instr.append 3 5, .getbit 3], i.wf = true) ∧
      ∃ t, execAll Config.std [.append 3 5, .getbit 3] State.reset = .next t := ⟨by decide, _, rfl⟩

theorem test_witness_OneResponsePerPacket :
    decode (State.reset.setCmd [0x02000000, 0]).cmd ≠ .incomplete ∧
      ∃ t, step (State.reset.setCmd [0x02000000, 0]) = .next t := ⟨by decide, _, rfl⟩

theorem test_witness_PayloadWordCounts :
    (∃ t, exec .init (three 64) = .next t ∧ t.rsp = [] ++ statusWord (opcode .init) okCode :: []) ∧
      (∃ t, exec (.getbit 2) (three 64) = .next t ∧
        t.rsp = [] ++ statusWord (opcode (.getbit 2)) okCode :: [1]) ∧
      (∃ t, exec .getbytes (buf 40 64 []) = .next t ∧
        t.rsp = [] ++ statusWord (opcode .getbytes) okCode :: [5, 0, 0]) ∧
      (∃ t, exec (.append 0 0) (three 64) = .next t ∧
        t.rsp = [] ++ statusWord (opcode (.append 0 0)) okCode :: []) ∧
      (∃ t, exec (.appendw 0 []) (three 64) = .next t ∧
        t.rsp = [] ++ statusWord (opcode (.appendw 0 [])) okCode :: []) ∧
      ∃ t, exec .length (three 64) = .next t ∧ t.rsp = [] ++ statusWord (opcode .length) okCode :: [3] :=
  ⟨⟨_, rfl, by decide⟩, ⟨_, rfl, by decide⟩, ⟨_, nextOf_some (t := sent (buf 40 64 []) [0x03000000, 5, 0, 0])
    (by decide), by decide⟩, ⟨_, rfl, by decide⟩, ⟨_, rfl, by decide⟩, _, rfl, by decide⟩

theorem test_witness_ErrorLeavesBufferUnchanged :
    step ((three 64).setCmd [0x04000020, 0]) = .next (sent (three 64) [0x04000002]) ∧
      (sent (three 64) [0x04000002]).rsp = ((three 64).setCmd [0x04000020, 0]).rsp ++ 0x04000002 :: [] ∧
      (0x04000002 : Word).extractLsb' 0 8 ≠ 0 :=
  ⟨nextOf_some (by decide), by decide⟩

theorem test_witness_LengthNeverDecreases :
    Instr.getbit 3 ≠ .init ∧ exec (.getbit 3) (three 64) = .next (sent (three 64) [0x02000001]) ∧
      (sent (three 64) [0x02000001]).rsp =
        (three 64).rsp ++ [statusWord (opcode (.getbit 3)) Err.range.code] :=
  ⟨by decide, nextOf_some (by decide), by decide⟩

theorem test_witness_CapChangesOnlyByDoubling :
    Instr.append 1 1 ≠ .init ∧ (∃ t, exec (.append 1 1) (buf 2048 64 []) = .next t) ∧
      ∃ t, exec (.getbit 2) (three 64) = .next t := ⟨by decide, ⟨_, rfl⟩, _, rfl⟩

theorem test_witness_StepKeepsInvariant :
    Inv Config.std (three 64) ∧ ∃ t, step (three 64) = .next t := ⟨inv_three 6 (by omega), _, rfl⟩

theorem test_witness_EveryInstanceStepsSafely :
    cfg40.legal ∧ Inv cfg40 (buf 40 64 []) ∧ Config.legal { maxLen := 1 } ∧ Config.legal { maxLen := 2 ^ 32 - 1 } :=
  ⟨by decide, inv_zeros 6 (by decide) (by omega) (phys_ge _) (by omega) (by decide) (by omega), by decide, by decide⟩

theorem test_witness_ResetMeetsInvariant :
    Config.legal { maxLen := 1 } ∧ Config.legal { maxLen := 2 ^ 32 - 1 } ∧ ¬ Config.legal { maxLen := 0 } := by decide

/-- The same three bits in a buffer of 64 and in one of 128 words. -/
theorem test_witness_CapIsHidden :
    Inv Config.std (three 64) ∧ Inv Config.std (three 128) ∧ (three 64).bitLength = (three 128).bitLength ∧
      (∀ j, j < (three 64).len → bitAt (three 64) j = bitAt (three 128) j) ∧ (three 64).cmd = (three 128).cmd ∧
      (three 64).rsp = (three 128).rsp ∧ (three 64).cap ≠ (three 128).cap :=
  ⟨inv_three 6 (by omega), inv_three 7 (by omega), rfl, fun _ _ => rfl, rfl, rfl, by decide⟩

theorem test_witness_WordAccessTouchesOneWord :
    (three 64).storage.wf = true ∧ 63 < (three 64).cap := by decide

theorem test_witness_AccessBeyondCapFaults : (three 64).cap ≤ 64 := by decide

/-- Two doublings are the least number that brings one word to 65 bits; one to 64. -/
theorem test_witness_GrowReachesLeastFit :
    1 ≤ (buf 0 1 []).cap ∧ 65 ≤ (buf 0 1 []).cap * 2 ^ 2 * 32 ∧ 64 ≤ (buf 0 1 []).cap * 2 ^ 1 * 32 ∧
      ∃ k, (buf 0 1 []).cap = 2 ^ k := ⟨by decide, by decide, by decide, 0, rfl⟩

/-- Words 63 and 64 are the last old and the first new one of a growth from 64 to 128. -/
theorem test_witness_GrowKeepsContents :
    1 ≤ (three 64).cap ∧ 63 < (three 64).cap ∧ (three 64).cap ≤ 64 ∧ 64 < (grow 2049 (three 64)).cap ∧
      (three 64).len ≤ (three 64).cap * 32 ∧ 2 < (three 64).len := by decide

theorem test_witness_GrowStaysWithinPhys :
    Config.std.legal ∧ InvCap Config.std (three 64) ∧ 2147483647 ≤ Config.std.maxLen :=
  ⟨by decide, (inv_three 6 (by omega)).cap, by decide⟩

theorem test_witness_AppendsKeepReadableBits :
    Inv Config.std (three 64) ∧ (∃ t, exec (.append 31 0x7FFFFFFF) (three 64) = .next t) ∧
      (∃ t, exec (.appendw 48 [0xDEADBEEF, 0x12340000]) (three 64) = .next t) ∧ 2 < (three 64).len :=
  ⟨inv_three 6 (by omega), ⟨_, rfl⟩, ⟨_, rfl⟩, by decide⟩

theorem test_witness_RefAppendIsTheOnlyExtension :
    InvMemory (buf 2047 64 []) ∧ InvZeroTail (buf 2047 64 []) ∧
      (buf 2047 64 []).len + [true].length ≤ (buf 2047 64 []).cap * 32 ∧
      (buf 2047 64 []).len + [true].length < 2 ^ 32 :=
  ⟨(inv_zeros_64 _ (by omega)).mem, (inv_zeros_64 _ (by omega)).tail, by decide⟩

theorem test_witness_ZeroTailInWordTerms :
    InvZeroTail (three 64) ∧ used (three 64).len ≠ 0 ∧ wordOf (three 64).len < (three 64).cap ∧
      used (buf 32 64 []).len = 0 ∧ wordOf (buf 32 64 []).len < (buf 32 64 []).cap :=
  ⟨(inv_three 6 (by omega)).tail, by decide⟩

theorem test_witness_BlockStepNeedsNoPorts :
    decode ((three 64).setCmd [0x06000000, 0x03000000]).cmd = .command .length [0x03000000] ∧
      decode ((three 64).setCmd [0x02000001, 0, 0x03000000]).cmd = .illegal 0x02 .nonzeroArgument [0x03000000] := by
  decide

/-- A packet of two words, an illegal one of two, and one of one. -/
theorem test_witness_PacketRunIsBlockRun :
    Inv Config.std (three 64) ∧
      [[(0x04000003 : Word), 5], [0x02000001, 0], [0x06000000]].map packetOf =
        [Packet.command (.append 3 5), .illegal 0x02, .command .length].map some :=
  ⟨inv_three 6 (by omega), by decide⟩

end Sys2Proof.Tests
end

/-! ## The state: `bitLength` under the commands (R22), and ZERO-TAIL in word terms (R21) -/

namespace Sys2Proof.Proofs

open Sys2Proof.Machine

/-! ### The status word -/

/-- The `err` field is read back from a status word (R62). -/
theorem statusWord_err (op err : BitVec 8) : (statusWord op err).extractLsb' 0 8 = err :=
  BitVec.extractLsb'_append_eq_right

theorem errCode_ne_okCode (e : Err) : e.code ≠ okCode := by cases e <;> decide

theorem statusWord_code_ne_ok (op : BitVec 8) (e : Err) : statusWord op e.code ≠ statusWord op okCode := by
  intro h
  have herr := congrArg (·.extractLsb' 0 8) h
  simp only [statusWord_err] at herr
  exact errCode_ne_okCode e herr

/-! ### What a command other than INIT does to `bitLength` -/

/-- The commands as `exec` runs them, with the default `MAXLEN` (R7). -/
theorem exec_eq_execUnder_std (i : Instr) (s : State) : exec i s = execUnder Config.std i s := by
  cases i <;> rfl

/-- From `s` to `t` a command with opcode `op` kept `bitLength`, or succeeded and set it to a value from the old one to
`MAXLEN`. -/
inductive LengthEffect (cfg : Config) (op : BitVec 8) (s t : State) : Prop
  | kept (h : t.bitLength = s.bitLength)
  | extended {n : Nat} {u : State} (hge : s.len ≤ n) (hmax : n ≤ cfg.maxLen)
      (ht : t = respond op [] (u.setLength n))

theorem appendUnder_lengthEffect {cfg : Config} {len : BitVec 24} {value : Word} {s t : State}
    (h : appendUnder cfg len value s = .next t) : LengthEffect cfg opAppend s t := by
  rcases appendUnder_next_cases h with ⟨e, -, rfl⟩ | ⟨-, -, rfl⟩ | ⟨hcheck, -, u, -, rfl⟩
  · exact .kept rfl
  · exact .kept rfl
  · obtain ⟨-, -, hmax⟩ := checkAppend_none_iff.1 hcheck
    exact .extended (Nat.le_add_right _ _) hmax rfl

theorem appendwUnder_lengthEffect {cfg : Config} {len : Word} {values : List Word} {s t : State}
    (h : appendwUnder cfg len values s = .next t) : LengthEffect cfg opAppendw s t := by
  rcases appendwUnder_next_cases h with ⟨e, -, rfl⟩ | ⟨-, -, rfl⟩ | ⟨hcheck, -, u, -, rfl⟩
  · exact .kept rfl
  · exact .kept rfl
  · obtain ⟨-, -, hmax⟩ := checkAppendw_none_iff.1 hcheck
    exact .extended (Nat.le_add_right _ _) hmax rfl

theorem execGetbit_bitLength {index : Word} {s t : State} (h : execGetbit index s = .next t) :
    t.bitLength = s.bitLength := by
  rcases execGetbit_next_cases h with ⟨-, rfl⟩ | ⟨-, -, rfl⟩ <;> rfl

theorem execGetbytes_bitLength {s t : State} (h : execGetbytes s = .next t) : t.bitLength = s.bitLength := by
  rcases execGetbytes_next_cases h with ⟨-, rfl⟩ | ⟨-, bytes, -, rfl⟩ <;> rfl

theorem execLength_bitLength {s t : State} (h : execLength s = .next t) : t.bitLength = s.bitLength := by
  cases h
  rfl

/-- Whatever `MAXLEN` is, no command but INIT does anything else to `bitLength`. -/
theorem execUnder_lengthEffect {cfg : Config} {i : Instr} {s t : State} (hi : i ≠ .init)
    (h : execUnder cfg i s = .next t) : LengthEffect cfg (opcode i) s t := by
  cases i with
  | init => exact absurd rfl hi
  | getbit index => exact .kept (execGetbit_bitLength h)
  | getbytes => exact .kept (execGetbytes_bitLength h)
  | append len value => exact appendUnder_lengthEffect h
  | appendw len values => exact appendwUnder_lengthEffect h
  | length => exact .kept (execLength_bitLength h)

/-- For a legal `MAXLEN` the new length fits the 32-bit register (R7, R18), so it is not below the old one. -/
theorem LengthEffect.len_le {cfg : Config} {op : BitVec 8} {s t : State} (h : LengthEffect cfg op s t)
    (hcfg : cfg.legal) : s.len ≤ t.len := by
  cases h with
  | kept h => exact (congrArg BitVec.toNat h).ge
  | extended hge hmax ht =>
    obtain ⟨-, hlegal⟩ := hcfg
    rw [ht, respond_len, State.setLength_len _ (by omega)]
    exact hge

/-- A set length comes with status OK, so an error status says the length was kept. -/
theorem LengthEffect.bitLength_of_error {cfg : Config} {op : BitVec 8} {s t : State} {e : Err} {ws : List Word}
    (h : LengthEffect cfg op s t) (hrsp : t.rsp = ws ++ [statusWord op e.code]) : t.bitLength = s.bitLength := by
  cases h with
  | kept h => exact h
  | extended hge hmax ht =>
    rw [ht, respond_rsp] at hrsp
    have hlast := List.append_inj_right' hrsp rfl
    exact absurd (List.cons.inj hlast).1.symm (statusWord_code_ne_ok op e)

theorem legal_std : Config.std.legal := by decide

/-- Settles O37: each command's effect on the length, and what its status then says. -/
theorem lengthNeverDecreases : Obligations.LengthNeverDecreases := by
  intro i s t hi h
  rw [exec_eq_execUnder_std] at h
  have heffect := execUnder_lengthEffect hi h
  exact ⟨heffect.len_le legal_std, fun _ hrsp => heffect.bitLength_of_error hrsp⟩

/-! ### Words and the stream bits they hold -/

/-- The low-order `n` bits of word `w` are its last `n` stream bits (R32). -/
theorem word_and_lowmask_eq_zero_iff (s : State) (w n : Nat) :
    s.word w &&& lowmask n = 0 ↔ ∀ i, wordOf i = w → 32 ≤ used i + n → bitAt s i = false := by
  rw [and_lowmask_eq_zero_iff]
  constructor
  · intro h i hi hn
    subst hi
    exact h (posOf i) (posOf_lt i) (by unfold posOf; unfold used at hn; omega)
  · intro h p hp hpn
    rw [word_getLsbD s w hp]
    exact h _ (by unfold wordOf; omega) (by unfold used; omega)

theorem and_lowmask_thirtyTwo (v : Word) : v &&& lowmask 32 = v := BitVec.and_allOnes

/-- A word is 0 exactly when its 32 stream bits are. -/
theorem word_eq_zero_iff (s : State) (w : Nat) : s.word w = 0 ↔ ∀ i, wordOf i = w → bitAt s i = false := by
  simpa [and_lowmask_thirtyTwo] using word_and_lowmask_eq_zero_iff s w 32

/-- The two clauses about the current word are one: its `remain` low-order bits are 0, all 32 where none is used. -/
theorem currentWord_clauses_iff (s : State) (L : Nat) (P : Prop) :
    ((used L ≠ 0 → P → s.word (wordOf L) &&& lowmask (32 - used L) = 0) ∧
        (used L = 0 → P → s.word (wordOf L) = 0)) ↔
      (P → s.word (wordOf L) &&& lowmask (remain L) = 0) := by
  by_cases h : used L = 0
  · simp [h, remain, and_lowmask_thirtyTwo]
  · simp [h, remain]

/-- ZERO-TAIL word by word (R21): the words beyond the current one, and the unused part of the current one. -/
theorem invZeroTail_iff_words (s : State) :
    InvZeroTail s ↔
      (∀ j, wordOf s.len < j → j < s.cap → s.word j = 0) ∧
      (wordOf s.len < s.cap → s.word (wordOf s.len) &&& lowmask (remain s.len) = 0) := by
  simp only [word_eq_zero_iff, word_and_lowmask_eq_zero_iff]
  constructor
  · refine fun h => ⟨fun j hj hcap i hi => ?_, fun hcap i hi hn => ?_⟩
    · exact h i (by unfold wordOf at hi hj; omega) (by unfold wordOf at hi; omega)
    · exact h i (by unfold remain used at hn; unfold wordOf at hi; omega) (by unfold wordOf at hi hcap; omega)
  · rintro ⟨hbeyond, hcurrent⟩ i hlen hcap
    have hword : wordOf i < s.cap := wordOf_lt hcap
    have hle : wordOf s.len ≤ wordOf i := Nat.div_le_div_right hlen
    rcases Nat.eq_or_lt_of_le hle with heq | hlt
    · exact hcurrent (by rwa [heq]) i heq.symm (by unfold remain used; unfold wordOf at heq; omega)
    · exact hbeyond _ hlt hword i rfl

/-- Settles O51: a bit of the tail stands beyond the current word or in its unused part. -/
theorem zeroTailInWordTerms : Obligations.ZeroTailInWordTerms := by
  intro s
  rw [currentWord_clauses_iff]
  exact invZeroTail_iff_words s

end Sys2Proof.Proofs

/-! ## The memory: what growing leaves as it was (R43) -/

namespace Sys2Proof.Proofs

open Sys2Proof.Machine

/-- Growing makes every word between the two capacities 0 (R43): where there is one, `cap` has moved. -/
theorem growsTo_word_exposed {s t : State} (h : GrowsTo s t) {w : Nat} (hold : s.cap ≤ w) (hnew : w < t.cap) :
    t.word w = 0 :=
  have hmoved : t.cap ≠ s.cap := (Nat.lt_of_le_of_lt hold hnew).ne'
  h.word_new hold hmoved

/-- Settles O47: each clause is a part of what `Grow` can do, and a readable bit stands in an old word. -/
theorem growKeepsContents : Obligations.GrowKeepsContents := by
  intro s need hpos
  have hgrow : GrowsTo s (grow need s) := grow_growsTo hpos
  refine ⟨fun j hj => ?old, fun j hold hnew => ?exposed, hgrow.bitLength, hgrow.cmd, hgrow.rsp,
    fun hlen i hi => ?readable⟩
  case old => exact hgrow.word_old hj
  case exposed => exact growsTo_word_exposed hgrow hold hnew
  case readable =>
    have hallocated : i < s.cap * 32 := Nat.lt_of_lt_of_le hi hlen
    exact hgrow.bitAt_old hallocated

end Sys2Proof.Proofs

/-! ## The encoding: packet lengths (R57), illegal packets (R66, R67), responses (R62) and error codes (R65) -/

namespace Sys2Proof.Proofs

open Sys2Proof.Machine

/-! ### The error codes -/

/-- Settles O35, error by error. -/
theorem errorCodeValues : Obligations.ErrorCodeValues := by
  refine ⟨rfl, rfl, rfl, rfl, rfl, rfl, fun e => ?_⟩
  cases e <;> decide

/-! ### The opcodes by the form of their packets -/

/-- The opcodes of the commands whose `a` field must be 0 (R67). -/
def noArgumentOp (op : BitVec 8) : Prop := op = opInit ∨ op = opGetbit ∨ op = opGetbytes ∨ op = opLength

theorem op_forms (op : BitVec 8) : noArgumentOp op ∨ op = opAppend ∨ op = opAppendw ∨ reservedOp op := by
  have hop := op_cases op
  unfold noArgumentOp
  tauto

/-- The reserved opcodes as R66 lists them. -/
theorem reservedOp_of_range {op : BitVec 8} (h : op = 0x00 ∨ 7 ≤ op.toNat) : reservedOp op := by
  rcases h with rfl | h
  · unfold reservedOp
    decide
  · refine ⟨?_, ?_, ?_, ?_, ?_, ?_⟩ <;> rintro rfl <;> exact absurd h (by decide)

theorem packetWords_reserved {h : Word} (hop : reservedOp (headerOp h)) : packetWords h = 1 := by
  obtain ⟨-, hgetbit, -, happend, happendw, -⟩ := hop
  exact packetWords_one hgetbit happend happendw

/-- The one-word packets are told by their opcode. -/
theorem packetWords_one_of_op {h : Word} {op : BitVec 8} (hop : headerOp h = op)
    (hone : op ≠ opGetbit ∧ op ≠ opAppend ∧ op ≠ opAppendw) : packetWords h = 1 := by
  obtain ⟨hgetbit, happend, happendw⟩ := hone
  subst hop
  exact packetWords_one hgetbit happend happendw

/-! ### Incomplete packets -/

/-- With fewer words than the header tells, the operand words are what is missing: only three opcodes have any. -/
theorem decode_of_short {h : Word} {t : List Word} (hshort : (h :: t).length < packetWords h) :
    decode (h :: t) = .incomplete := by
  rw [List.length_cons] at hshort
  by_cases hgetbit : headerOp h = opGetbit
  · rw [packetWords_two (.inl hgetbit)] at hshort
    obtain rfl : t = [] := List.eq_nil_of_length_eq_zero (by omega)
    exact decode_getbit_short hgetbit
  by_cases happend : headerOp h = opAppend
  · rw [packetWords_two (.inr happend)] at hshort
    obtain rfl : t = [] := List.eq_nil_of_length_eq_zero (by omega)
    exact decode_append_short happend
  by_cases happendw : headerOp h = opAppendw
  · rw [packetWords_appendw happendw] at hshort
    cases t with
    | nil => exact decode_appendw_short happendw
    | cons len ws =>
      rw [List.length_cons] at hshort
      rw [decode_appendw len ws happendw, if_pos (by omega)]
  · rw [packetWords_one hgetbit happend happendw] at hshort
    omega

/-- A packet the decoder does not wait for has all its words. -/
theorem packetWords_le_of_complete {h : Word} {t : List Word} (hd : decode (h :: t) ≠ .incomplete) :
    packetWords h ≤ (h :: t).length :=
  Nat.le_of_not_lt fun hshort => hd (decode_of_short hshort)

/-! ### Complete packets -/

/-- A packet of at least two words has an operand after its header. -/
theorem exists_operand {h : Word} {t : List Word} (htwo : 2 ≤ packetWords h)
    (hfit : packetWords h ≤ (h :: t).length) : ∃ o1 rest, t = o1 :: rest := by
  cases t with
  | nil =>
    rw [List.length_singleton] at hfit
    omega
  | cons o1 rest => exact ⟨o1, rest, rfl⟩

/-- A complete packet whose `a` field must be 0 is judged on that field alone (R67), and taken whole either way. -/
theorem decode_noArgument {h : Word} {t : List Word} (hop : noArgumentOp (headerOp h))
    (hfit : packetWords h ≤ (h :: t).length) :
    ∃ i, opcode i = headerOp h ∧ decode (h :: t) = ifNoArgument h i ((h :: t).drop (packetWords h)) := by
  rcases hop with hop | hop | hop | hop
  · rw [packetWords_one_of_op hop (by decide)]
    exact ⟨.init, hop.symm, decode_init t hop⟩
  · have htwo : packetWords h = 2 := packetWords_two (.inl hop)
    obtain ⟨o1, rest, rfl⟩ := exists_operand htwo.ge hfit
    rw [htwo]
    exact ⟨.getbit o1, hop.symm, decode_getbit o1 rest hop⟩
  · rw [packetWords_one_of_op hop (by decide)]
    exact ⟨.getbytes, hop.symm, decode_getbytes t hop⟩
  · rw [packetWords_one_of_op hop (by decide)]
    exact ⟨.length, hop.symm, decode_length t hop⟩

/-- A complete packet with the opcode of APPEND is an APPEND for every `a` (R58, R67). -/
theorem decode_append_complete {h : Word} {t : List Word} (hop : headerOp h = opAppend)
    (hfit : packetWords h ≤ (h :: t).length) :
    ∃ value, decode (h :: t) = .command (.append (headerArg h) value) ((h :: t).drop (packetWords h)) := by
  have htwo : packetWords h = 2 := packetWords_two (.inr hop)
  obtain ⟨value, rest, rfl⟩ := exists_operand htwo.ge hfit
  rw [htwo]
  exact ⟨value, decode_append value rest hop⟩

/-- A complete packet with the opcode of APPENDW is an APPENDW of `a` source words for every `a` (R59, R67). -/
theorem decode_appendw_complete {h : Word} {t : List Word} (hop : headerOp h = opAppendw)
    (hfit : packetWords h ≤ (h :: t).length) :
    ∃ len values, decode (h :: t) = .command (.appendw len values) ((h :: t).drop (packetWords h)) ∧
      values.length = (headerArg h).toNat := by
  have hwords : packetWords h = 2 + (headerArg h).toNat := packetWords_appendw hop
  obtain ⟨len, ws, rfl⟩ := exists_operand (by omega) hfit
  rw [hwords, List.length_cons, List.length_cons] at hfit
  have hcount : (headerArg h).toNat ≤ ws.length := by omega
  refine ⟨len, ws.take (headerArg h).toNat, ?_, List.length_take_of_le hcount⟩
  rw [decode_appendw len ws hop, if_neg (Nat.not_lt.2 hcount), hwords, Nat.add_comm]
  rfl

/-- The decoder read a command or an illegal packet with the opcode of `h` and left `rest`. -/
def ReadPacket (h : Word) (rest : List Word) (d : Decoded) : Prop :=
  (∃ i, d = .command i rest ∧ opcode i = headerOp h) ∨ ∃ why, d = .illegal (headerOp h) why rest

theorem readPacket_ifNoArgument {h : Word} {i : Instr} (hi : opcode i = headerOp h) (rest : List Word) :
    ReadPacket h rest (ifNoArgument h i rest) := by
  by_cases ha : headerArg h = 0
  · exact .inl ⟨i, ifNoArgument_zero i rest ha, hi⟩
  · exact .inr ⟨_, ifNoArgument_nonzero i rest ha⟩

/-- A packet with all its words is read, legal or not, and exactly its words are taken (R57). -/
theorem decode_complete {h : Word} {t : List Word} (hfit : packetWords h ≤ (h :: t).length) :
    ReadPacket h ((h :: t).drop (packetWords h)) (decode (h :: t)) := by
  rcases op_forms (headerOp h) with hop | hop | hop | hop
  · obtain ⟨i, hi, hd⟩ := decode_noArgument hop hfit
    rw [hd]
    exact readPacket_ifNoArgument hi _
  · obtain ⟨value, hd⟩ := decode_append_complete hop hfit
    exact .inl ⟨_, hd, hop.symm⟩
  · obtain ⟨len, values, hd, -⟩ := decode_appendw_complete hop hfit
    exact .inl ⟨_, hd, hop.symm⟩
  · rw [packetWords_reserved hop]
    exact .inr ⟨_, decode_reserved t hop⟩

/-- Settles O26: the header tells the length, and the decoder keeps to it. -/
theorem packetLengthFromHeader : Obligations.PacketLengthFromHeader := fun _ _ =>
  ⟨packetWords_two, packetWords_appendw, packetWords_one, decode_of_short, decode_complete⟩

/-! ### The status word's fields -/

/-- A status word is a header with `err` in the low-order byte of its `a` field (R53, R62). -/
theorem statusWord_eq_header (op err : BitVec 8) : statusWord op err = header op ((0 : BitVec 16) ++ err) :=
  BitVec.append_assoc

theorem statusWord_op (op err : BitVec 8) : (statusWord op err).extractLsb' 24 8 = op := by
  rw [statusWord_eq_header]
  exact headerOp_header op _

theorem statusWord_middle (op err : BitVec 8) : (statusWord op err).extractLsb' 8 16 = 0 := by
  apply BitVec.eq_of_getLsbD_eq
  intro p hp
  unfold statusWord
  rw [BitVec.getLsbD_extractLsb', BitVec.getLsbD_append, if_neg (by omega), BitVec.getLsbD_append, if_pos (by omega)]
  simp

/-! ### Illegal packets -/

/-- An illegal packet is taken off the stream and answered IllegalCommand; nothing else changes (R66, R67). -/
theorem step_of_illegal {s : State} {op : BitVec 8} {why : Illegal} {rest : List Word}
    (hd : decode s.cmd = .illegal op why rest) :
    step s = .next { s with cmd := rest, rsp := s.rsp ++ [header op 5] } := by
  have hstatus : statusWord op Err.illegalCommand.code = header op 5 := statusWord_eq_header op _
  rw [← hstatus]
  exact stepWith_of_illegal hd

/-- Settles O27: the decoder finds a reserved opcode illegal. -/
theorem reservedOpcodeIsIllegal : Obligations.ReservedOpcodeIsIllegal := by
  refine ⟨fun s h t hcmd hop => step_of_illegal (why := .reservedOpcode) ?_, by decide, by decide⟩
  rw [hcmd]
  exact decode_reserved t (reservedOp_of_range hop)

/-- Settles O28: each complete packet is judged by its opcode's form. -/
theorem nonzeroArgumentIsIllegal : Obligations.NonzeroArgumentIsIllegal := by
  intro s h t hcmd hfit
  refine ⟨fun hop ha => ?illegal, fun hop => ?append, fun hop => ?appendw⟩
  case illegal =>
    obtain ⟨i, -, hd⟩ := decode_noArgument hop hfit
    rw [ifNoArgument_nonzero i _ ha, ← hcmd] at hd
    rw [← hcmd]
    exact step_of_illegal hd
  case append =>
    obtain ⟨value, hd⟩ := decode_append_complete hop hfit
    exact ⟨value, _, hd⟩
  case appendw =>
    obtain ⟨len, values, hd, hcount⟩ := decode_appendw_complete hop hfit
    exact ⟨len, values, _, hd, hcount⟩

/-! ### The datapath sends nothing -/

/-- Where this computation from `s` ends, no response word was sent. -/
def SendsNothing (s : State) (x : Except Fault State) : Prop := ∀ t, x = .ok t → t.rsp = s.rsp

theorem SendsNothing.ok {s t : State} (h : t.rsp = s.rsp) : SendsNothing s (.ok t) := by
  rintro _ ⟨⟩
  exact h

/-- Two computations in a row that send nothing send nothing together. -/
theorem SendsNothing.bind {s : State} {x : Except Fault State} {f : State → Except Fault State}
    (hx : SendsNothing s x) (hf : ∀ u, SendsNothing u (f u)) : SendsNothing s (x >>= f) := by
  cases x with
  | error e => exact fun _ h => nomatch h
  | ok u => exact fun t ht => (hf u t ht).trans (hx u rfl)

theorem SendsNothing.bind_word {s : State} {x : Except Fault Word} {f : Word → Except Fault State}
    (hf : ∀ v, SendsNothing s (f v)) : SendsNothing s (x >>= f) := by
  cases x with
  | error e => exact fun _ h => nomatch h
  | ok v => exact hf v

theorem memWrite_sendsNothing (w : Nat) (v : Word) (s : State) : SendsNothing s (memWrite w v s) := by
  intro t h
  obtain ⟨-, rfl⟩ := memWrite_ok_iff.1 h
  rfl

theorem merge_sendsNothing (value : Word) (len L : Nat) (s : State) : SendsNothing s (merge value len L s) := by
  unfold merge
  split_ifs
  · exact .bind_word fun _ => memWrite_sendsNothing _ _ s
  · exact .bind_word fun _ => .bind (memWrite_sendsNothing _ _ s) fun u => memWrite_sendsNothing _ _ u

theorem copyWords_sendsNothing (vs : List Word) (w : Nat) (s : State) : SendsNothing s (copyWords vs w s) := by
  induction vs generalizing w s with
  | nil => exact .ok rfl
  | cons v vs ih => exact .bind (memWrite_sendsNothing w v s) fun u => ih (w + 1) u

theorem shiftWords_sendsNothing (sh : Nat) (vs : List Word) (w : Nat) (s : State) :
    SendsNothing s (shiftWords sh vs w s) := by
  induction vs generalizing w s with
  | nil => exact .ok rfl
  | cons v vs ih =>
    exact .bind_word fun _ => .bind (memWrite_sendsNothing _ _ s) fun u =>
      .bind (memWrite_sendsNothing _ _ u) fun u' => ih (w + 1) u'

theorem shiftmerge_sendsNothing (values : List Word) (len L : Nat) (s : State) :
    SendsNothing s (shiftmerge values len L s) := by
  refine .bind (shiftWords_sendsNothing _ _ _ s) fun u => ?_
  split_ifs
  · exact .ok rfl
  · exact merge_sendsNothing _ _ _ u

/-- Growth sends nothing, from any capacity. -/
theorem grow_rsp (need : Nat) (s : State) : (grow need s).rsp = s.rsp := by
  have loop : ∀ (fuel : Nat) (u : State), (growLoop fuel need u).rsp = u.rsp := by
    intro fuel
    induction fuel with
    | zero => exact fun _ => rfl
    | succ fuel ih =>
      intro u
      unfold growLoop
      split_ifs
      · exact ih (double u)
      · rfl
  exact loop need s

/-! ### One response packet -/

/-- From `s` to `t` one response packet to a command with opcode `op` was sent: status OK and a payload, or an error
alone (R62). -/
inductive Answered (op : BitVec 8) (s t : State) : Prop
  | ok (payload : List Word) (h : t.rsp = s.rsp ++ statusWord op okCode :: payload)
  | error (e : Err) (h : t.rsp = s.rsp ++ [statusWord op e.code])

theorem appendUnder_answered {cfg : Config} {len : BitVec 24} {value : Word} {s t : State}
    (h : appendUnder cfg len value s = .next t) : Answered opAppend s t := by
  rcases appendUnder_next_cases h with ⟨e, -, rfl⟩ | ⟨-, -, rfl⟩ | ⟨-, -, u, hu, rfl⟩
  · exact .error e rfl
  · exact .ok [] rfl
  · refine .ok [] ?_
    rw [respond_rsp, State.setLength_rsp, merge_sendsNothing _ _ _ _ u hu, grow_rsp]

theorem appendwUnder_answered {cfg : Config} {len : Word} {values : List Word} {s t : State}
    (h : appendwUnder cfg len values s = .next t) : Answered opAppendw s t := by
  rcases appendwUnder_next_cases h with ⟨e, -, rfl⟩ | ⟨-, -, rfl⟩ | ⟨-, -, u, hu, rfl⟩
  · exact .error e rfl
  · exact .ok [] rfl
  · refine .ok [] ?_
    have hkept : u.rsp = (grow (s.len + len.toNat) s).rsp := by
      split_ifs at hu
      · exact copyWords_sendsNothing _ _ _ u hu
      · exact shiftmerge_sendsNothing _ _ _ _ u hu
    rw [respond_rsp, State.setLength_rsp, hkept, grow_rsp]

theorem execGetbit_answered {index : Word} {s t : State} (h : execGetbit index s = .next t) :
    Answered opGetbit s t := by
  rcases execGetbit_next_cases h with ⟨-, rfl⟩ | ⟨-, -, rfl⟩
  · exact .error .range rfl
  · exact .ok _ rfl

theorem execGetbytes_answered {s t : State} (h : execGetbytes s = .next t) : Answered opGetbytes s t := by
  rcases execGetbytes_next_cases h with ⟨-, rfl⟩ | ⟨-, bytes, -, rfl⟩
  · exact .error .invalidState rfl
  · exact .ok _ rfl

/-- Every command that ends, whatever `MAXLEN` is, has sent its one response packet. -/
theorem execUnder_answered {cfg : Config} {i : Instr} {s t : State} (h : execUnder cfg i s = .next t) :
    Answered (opcode i) s t := by
  cases i with
  | init =>
    cases h
    exact .ok [] rfl
  | getbit index => exact execGetbit_answered h
  | getbytes => exact execGetbytes_answered h
  | append len value => exact appendUnder_answered h
  | appendw len values => exact appendwUnder_answered h
  | length =>
    cases h
    exact .ok [s.bitLength] rfl

/-- A step on a complete packet answers it, with the opcode of its header. -/
theorem step_answered {s t : State} {h : Word} {ws : List Word} (hcmd : s.cmd = h :: ws)
    (hd : decode s.cmd ≠ .incomplete) (hstep : step s = .next t) : Answered (headerOp h) s t := by
  rw [hcmd] at hd
  have hpacket := decode_complete (packetWords_le_of_complete hd)
  rw [← hcmd] at hpacket
  rcases hpacket with ⟨i, hread, hop⟩ | ⟨why, hread⟩
  · have hexec : exec i (s.setCmd _) = .next t := (stepWith_of_command hread).symm.trans hstep
    rw [exec_eq_execUnder_std] at hexec
    rw [← hop]
    cases execUnder_answered hexec with
    | ok payload hrsp => exact .ok payload hrsp
    | error e hrsp => exact .error e hrsp
  · have hillegal : answerIllegal (headerOp h) (s.setCmd _) = .next t := (stepWith_of_illegal hread).symm.trans hstep
    cases hillegal
    exact .error .illegalCommand rfl

/-- Settles O33: the fields of the one status word sent. -/
theorem oneResponsePerPacket : Obligations.OneResponsePerPacket := by
  intro s t hd hstep
  cases hcmd : s.cmd with
  | nil => exact absurd (congrArg decode hcmd) hd
  | cons h ws =>
    rw [List.headD_cons]
    cases step_answered hcmd hd hstep with
    | ok payload hrsp =>
      exact ⟨_, payload, hrsp, statusWord_op _ _, statusWord_middle _ _, .inl (statusWord_err _ _)⟩
    | error e hrsp =>
      exact ⟨_, [], hrsp, statusWord_op _ _, statusWord_middle _ _, .inr ⟨e, statusWord_err _ _, rfl⟩⟩

end Sys2Proof.Proofs

/-! ## Construction: INIT (R72) -/

namespace Sys2Proof.Proofs

open Sys2Proof.Machine

/-- A header written from its fields, whose `a` should be 0 and is not, is illegal with its own opcode (R67). -/
theorem ifNoArgument_header_nonzero {op : BitVec 8} {a : BitVec 24} (i : Instr) (rest : List Word) (ha : a ≠ 0) :
    ifNoArgument (header op a) i rest = .illegal op .nonzeroArgument rest := by
  have harg : headerArg (header op a) ≠ 0 := by rwa [headerArg_header]
  rw [ifNoArgument_nonzero i rest harg, headerOp_header]

/-- Every word of a constructed buffer is 0, below `cap` and beyond it (R30). -/
theorem word_eq_zero_of_constructed {s : State} (h : s.toBuffer = Buffer.constructed) (w : Nat) : s.word w = 0 := by
  have hstorage : s.storage = [] := congrArg Buffer.storage h
  rw [State.word, hstorage, Memory.readWord_nil]

/-- INIT leaves the buffer of the reset state, whatever buffer it found, and sends status OK alone (R72). -/
theorem exec_init (s : State) :
    exec .init s = .next { State.reset with cmd := s.cmd, rsp := s.rsp ++ [0x01000000] } := by
  have hstatus : statusWord opInit okCode = 0x01000000 := by decide
  rw [← hstatus]
  rfl

/-- Settles O3: INIT's effect is one state, whose buffer is the constructed one, and `a ≠ 0` is an illegal packet. -/
theorem initConstructsEmptyBuffer : Obligations.InitConstructsEmptyBuffer := by
  intro s
  refine ⟨by decide, exec_init s, fun t ht => ?buffer, fun a rest ha hcmd => ?illegal⟩
  case buffer =>
    rw [exec_init] at ht
    cases ht
    exact ⟨rfl, rfl, word_eq_zero_of_constructed rfl⟩
  case illegal =>
    have hd : decode s.cmd = .illegal opInit .nonzeroArgument rest := by
      rw [hcmd]
      exact (decode_init rest (headerOp_header opInit a)).trans (ifNoArgument_header_nonzero .init rest ha)
    have hanswer : header opInit 5 = 0x01000005 := by decide
    rw [← hanswer]
    exact step_of_illegal hd

end Sys2Proof.Proofs

/-! ## The reads: GETBIT, GETBYTES, LENGTH (R74, R77, R80, R81) -/

namespace Sys2Proof.Proofs

open Sys2Proof.Machine

/-! ### A nonzero `a` field -/

/-- A packet whose `a` should be 0 and is not is taken whole and answered IllegalCommand (R67). -/
theorem step_nonzeroArgument {s : State} {op : BitVec 8} {a : BitVec 24} {i : Instr} {t rest : List Word} (ha : a ≠ 0)
    (hcmd : s.cmd = header op a :: t) (hd : decode (header op a :: t) = ifNoArgument (header op a) i rest) :
    step s = .next { s with cmd := rest, rsp := s.rsp ++ [header op 5] } := by
  rw [ifNoArgument_header_nonzero i rest ha, ← hcmd] at hd
  exact step_of_illegal hd

/-! ### LENGTH (R80) -/

theorem exec_length (s : State) : exec .length s = .next (s.emit [0x06000000, s.bitLength]) := by
  have hstatus : statusWord opLength okCode = 0x06000000 := by decide
  rw [← hstatus]
  rfl

/-- Settles O8: LENGTH has one outcome, and `a ≠ 0` is an illegal packet. -/
theorem lengthReadsBitLength : Obligations.LengthReadsBitLength := by
  intro s
  refine ⟨by decide, exec_length s, fun a rest ha hcmd => ?illegal⟩
  case illegal =>
    have hanswer : header opLength 5 = 0x06000005 := by decide
    rw [← hanswer]
    exact step_nonzeroArgument ha hcmd (decode_length rest (headerOp_header opLength a))

/-! ### GETBIT (R74) -/

/-- The word GETBIT answers is the bit it shifted down, zero-extended. -/
theorem shr_and_one (v : Word) (p : Nat) : shr v p &&& 1 = if v.getLsbD p then 1 else 0 := by
  apply BitVec.eq_of_getLsbD_eq
  intro q _
  rw [getLsbD_bit, BitVec.getLsbD_and, getLsbD_shr]
  by_cases hq : q = 0 <;> simp [hq]

theorem exec_getbit_of_lt {index : Word} {s : State} (hlt : index.toNat < s.len) (hw : wordOf index.toNat < s.cap) :
    exec (.getbit index) s = .next (s.emit [0x02000000, if bitAt s index.toNat then 1 else 0]) := by
  have hstatus : statusWord opGetbit okCode = 0x02000000 := by decide
  have hexec : execGetbit index s =
      .next (respond opGetbit [shr (s.word (wordOf index.toNat)) (posOf index.toNat) &&& 1] s) := by
    rw [execGetbit, if_pos hlt, memRead_of_lt hw]
  rw [shr_and_one, respond, hstatus] at hexec
  exact hexec

theorem exec_getbit_of_ge {index : Word} {s : State} (hge : s.len ≤ index.toNat) :
    exec (.getbit index) s = .next (s.emit [0x02000001]) := by
  have hstatus : statusWord opGetbit Err.range.code = 0x02000001 := by decide
  rw [← hstatus]
  exact if_neg (Nat.not_lt.2 hge)

/-- Settles O4: LEN puts the word of a written bit below `cap`, and `a ≠ 0` is an illegal packet of two words. -/
theorem getbitReadsOneBit : Obligations.GetbitReadsOneBit := by
  intro s index
  have hencode : header opGetbit 0 = 0x02000000 := by decide
  refine ⟨congrArg (· :: [index]) hencode, fun hlen hlt => ?bit, exec_getbit_of_ge, fun a rest ha hcmd => ?illegal⟩
  case bit => exact exec_getbit_of_lt hlt (wordOf_lt (hlt.trans_le hlen))
  case illegal =>
    have hanswer : header opGetbit 5 = 0x02000005 := by decide
    rw [← hanswer]
    exact step_nonzeroArgument ha hcmd (decode_getbit index rest (headerOp_header opGetbit a))

/-! ### GETBYTES (R77) -/

/-- The low `n` bits of a number, summed from the most significant down. -/
theorem sum_testBit_high_first (x n : Nat) :
    ((List.range n).map fun j => (x.testBit (n - (j + 1))).toNat * 2 ^ (n - (j + 1))).sum = x % 2 ^ n := by
  induction n with
  | zero => simp [Nat.mod_one]
  | succ n ih =>
    have hhead : (x.testBit n).toNat * 2 ^ n = 2 ^ n * (x / 2 ^ n % 2) := by rw [Nat.toNat_testBit, Nat.mul_comm]
    rw [List.range_succ_eq_map, List.map_cons, List.map_map, List.sum_cons, Nat.mod_pow_succ, ← ih, Nat.add_comm]
    simp only [Function.comp_def, Nat.succ_eq_add_one, Nat.add_sub_add_right, Nat.sub_zero, hhead]

/-- The eight stream bits R34 sums are those of the byte the model keeps. -/
theorem byteAt_eq_readByte (s : State) (k : Nat) : byteAt s k = (s.storage.readByte k).toNat := by
  have hbit : ∀ j ∈ List.range 8, (bitAt s (8 * k + j)).toNat * 2 ^ (7 - j) =
      ((s.storage.readByte k).toNat.testBit (8 - (j + 1))).toNat * 2 ^ (8 - (j + 1)) := by
    intro j hj
    rw [List.mem_range] at hj
    rw [bitAt_eq_byte, show (8 * k + j) / 8 = k by omega, show (8 * k + j) % 8 = j by omega,
      show 8 - (j + 1) = 7 - j by omega, BitVec.testBit_toNat]
  rw [byteAt, List.map_congr_left hbit, sum_testBit_high_first, Nat.mod_eq_of_lt (s.storage.readByte k).isLt]

theorem exec_getbytes_of_read {s : State} {bytes : List Byte} (h8 : s.len % 8 = 0)
    (hread : readStreamBytes (s.len / 8) 0 s = .ok bytes) :
    exec .getbytes s = .next (s.emit (0x03000000 :: BitVec.ofNat 32 (s.len / 8) :: packBytes bytes)) := by
  have hstatus : statusWord opGetbytes okCode = 0x03000000 := by decide
  have hexec : execGetbytes s = .next (respond opGetbytes (BitVec.ofNat 32 (s.len / 8) :: packBytes bytes) s) := by
    rw [execGetbytes, if_pos h8, hread]
  rw [respond, hstatus] at hexec
  exact hexec

theorem exec_getbytes_of_unaligned {s : State} (h8 : s.len % 8 ≠ 0) :
    exec .getbytes s = .next (s.emit [0x03000003]) := by
  have hstatus : statusWord opGetbytes Err.invalidState.code = 0x03000003 := by decide
  rw [← hstatus]
  exact if_neg h8

/-- Under LEN the words of the stream's bytes exist, and the bytes read are those of R34. -/
theorem readStreamBytes_eq_byteAt {s : State} (hlen : s.len ≤ s.cap * 32) :
    readStreamBytes (s.len / 8) 0 s = .ok ((List.range (s.len / 8)).map fun k => BitVec.ofNat 8 (byteAt s k)) := by
  rw [readStreamBytes_ok (by omega), ← List.range_eq_range']
  simp only [byteAt_eq_readByte, BitVec.ofNat_toNat, BitVec.setWidth_eq]

/-- Settles O5: the bytes read are those of the byte view, and `a ≠ 0` is an illegal packet. -/
theorem getbytesReadsWholeStream : Obligations.GetbytesReadsWholeStream := by
  intro s
  refine ⟨by decide, fun hlen h8 => ?bytes, exec_getbytes_of_unaligned, fun a rest ha hcmd => ?illegal⟩
  case bytes => exact exec_getbytes_of_read h8 (readStreamBytes_eq_byteAt hlen)
  case illegal =>
    have hanswer : header opGetbytes 5 = 0x03000005 := by decide
    rw [← hanswer]
    exact step_nonzeroArgument ha hcmd (decode_getbytes rest (headerOp_header opGetbytes a))

/-! ### Reads are pure (R81) -/

/-- Where this command answers, its answer is told by the buffer alone, and sending it is all the command does. -/
def AnswersFromBuffer (i : Instr) : Prop :=
  ∀ s t : State, exec i s = .next t →
    ∃ ws, ws ≠ [] ∧ ∀ u : State, u.toBuffer = s.toBuffer → exec i u = .next (u.emit ws)

theorem length_answersFromBuffer : AnswersFromBuffer .length := by
  intro s _ _
  refine ⟨[0x06000000, s.bitLength], List.cons_ne_nil _ _, ?_⟩
  rintro ⟨_, cmd, rsp⟩ rfl
  exact exec_length _

theorem getbit_answersFromBuffer (index : Word) : AnswersFromBuffer (.getbit index) := by
  intro s t h
  rcases execGetbit_next_cases h with ⟨hge, -⟩ | ⟨hlt, hw, -⟩
  · refine ⟨[0x02000001], List.cons_ne_nil _ _, ?_⟩
    rintro ⟨_, cmd, rsp⟩ rfl
    exact exec_getbit_of_ge hge
  · refine ⟨[0x02000000, if bitAt s index.toNat then 1 else 0], List.cons_ne_nil _ _, ?_⟩
    rintro ⟨_, cmd, rsp⟩ rfl
    exact exec_getbit_of_lt hlt hw

/-- The bytes read are told by the buffer alone. -/
theorem readStreamBytes_of_toBuffer {s u : State} (h : u.toBuffer = s.toBuffer) (n k : Nat) :
    readStreamBytes n k u = readStreamBytes n k s := by
  rw [State.eq_alone_withPorts u, State.eq_alone_withPorts s, readStreamBytes_withPorts, readStreamBytes_withPorts, h]

theorem getbytes_answersFromBuffer : AnswersFromBuffer .getbytes := by
  intro s t h
  rcases execGetbytes_next_cases h with ⟨h8, -⟩ | ⟨h8, bytes, hread, -⟩
  · refine ⟨[0x03000003], List.cons_ne_nil _ _, ?_⟩
    rintro ⟨_, cmd, rsp⟩ rfl
    exact exec_getbytes_of_unaligned h8
  · refine ⟨0x03000000 :: BitVec.ofNat 32 (s.len / 8) :: packBytes bytes, List.cons_ne_nil _ _, ?_⟩
    rintro ⟨_, cmd, rsp⟩ rfl
    have hsame := readStreamBytes_of_toBuffer (s := s) (u := ⟨s.toBuffer, cmd, rsp⟩) rfl (s.len / 8) 0
    exact exec_getbytes_of_read h8 (hsame.trans hread)

/-- Settles O9: a read leaves the buffer that told its answer, which so tells the same answer again. -/
theorem readsArePure : Obligations.ReadsArePure := by
  intro i s t hi h
  have hread : AnswersFromBuffer i := by
    rcases hi with rfl | rfl | ⟨index, rfl⟩
    · exact getbytes_answersFromBuffer
    · exact length_answersFromBuffer
    · exact getbit_answersFromBuffer index
  obtain ⟨ws, hne, hanswer⟩ := hread s t h
  obtain rfl : s.emit ws = t := Host.Outcome.next.inj ((hanswer s rfl).symm.trans h)
  exact ⟨rfl, rfl, rfl, rfl, (s.emit ws).emit ws, ws, hanswer _ rfl, rfl, rfl, hne⟩

end Sys2Proof.Proofs

/-! ## The single-word append: APPEND (R82 to R90) -/

namespace Sys2Proof.Proofs

open Sys2Proof.Machine

/-! ### The packet -/

/-- A header is its opcode in the high-order byte, ORed with its `a` field (R53). -/
theorem header_eq_or (op : BitVec 8) (a : BitVec 24) : header op a = (op.setWidth 32 <<< 24 ||| a.setWidth 32) := by
  apply BitVec.eq_of_getLsbD_eq
  intro p hp
  unfold header
  rw [BitVec.getLsbD_append, BitVec.getLsbD_or, BitVec.getLsbD_shiftLeft, BitVec.getLsbD_setWidth,
    BitVec.getLsbD_setWidth]
  by_cases hlow : p < 24
  · simp [hp, hlow]
  · have hhigh : p - 24 < 32 := by omega
    simp [hp, hlow, hhigh, BitVec.getLsbD_of_ge a p (by omega)]

/-! ### A grown state takes a run as the per-bit reference does -/

/-- What a run of `n` bits finds where it may be written: canonical storage that ends at `cap`, zeros from `bitLength`
on, and room. -/
structure ReadyFor (s : State) (n : Nat) : Prop where
  wf : s.storage.wf = true
  cells : ∀ c ∈ s.storage, c.1 < 4 * s.cap
  tail : zeroFrom s s.len
  fits : s.len + n ≤ s.cap * 32

/-- Growing exposes zeros only, so ZERO-TAIL holds up to the new capacity (R43). -/
theorem growsTo_zeroFrom {s t : State} (h : GrowsTo s t) {lo : Nat} (hz : zeroFrom s lo) : zeroFrom t lo := by
  intro i hlo hi
  by_cases hold : i < s.cap * 32
  · exact (h.bitAt_old hold).trans (hz i hlo hold)
  · have hmoved : t.cap ≠ s.cap := fun he => hold (he ▸ hi)
    exact h.bitAt_new (Nat.le_of_not_lt hold) hmoved

/-- Under the invariants `Grow(L + n)` makes the state ready for `n` more bits (R42, R43, R86). -/
theorem grow_readyFor {cfg : Config} {s : State} (h : Inv cfg s) (n : Nat) :
    ReadyFor (grow (s.len + n) s) n := by
  obtain ⟨-, h64, -⟩ := h.cap
  obtain ⟨hwf, hcells⟩ := h.mem
  have hpos : 1 ≤ s.cap := by omega
  have hgrow : GrowsTo s (grow (s.len + n) s) := grow_growsTo hpos
  refine ⟨hgrow.wf hwf, fun c hc => ?cells, ?tail, ?fits⟩
  case cells => exact (hcells c (hgrow.mem c hc)).trans_le (Nat.mul_le_mul_left 4 (grow_cap_le hpos))
  case tail =>
    rw [grow_len]
    exact growsTo_zeroFrom hgrow h.tail
  case fits =>
    rw [grow_len]
    exact grow_fits hpos

/-- Whatever writes a run's bits at `bitLength` and then sets the length has done the per-bit append of them (R41). -/
theorem ReadyFor.setLength_eq_refAppend {s t : State} {n : Nat} {bits : List Bool} (h : ReadyFor s n)
    (hn : bits.length = n) (h32 : s.len + n < 2 ^ 32) (hw : Wrote s t s.len n fun k => bits.getD k false) :
    t.setLength (s.len + n) = refAppend s bits := by
  subst hn
  obtain ⟨u, hu, href⟩ := refAppend_eq bits h.wf h.tail h.fits h32
  rw [href, hw.unique h.cells hu]

/-- The equivalence with the per-bit reference (R90): `merge` answers, and with the length set it has appended the run
bit by bit. -/
theorem ReadyFor.merge_eq_refAppend {s : State} {len : Nat} {value : Word} (h : ReadyFor s len) (h1 : 1 ≤ len)
    (h31 : len ≤ 31) (hv : shr value len = 0) (h32 : s.len + len < 2 ^ 32) :
    ∃ t, merge value len s.len s = .ok t ∧ t.setLength (s.len + len) = refAppend s (runBits len value) := by
  obtain ⟨t, ht, hw⟩ := merge_wrote h.wf h.tail h1 h31 hv h.fits
  have hbits := hw.congr fun k hk => (runBits_getD value hk).symm
  exact ⟨t, ht, h.setLength_eq_refAppend (runBits_length len value) h32 hbits⟩

/-! ### The tests of APPEND in order (R83) -/

section Tests

variable {cfg : Config} {len L : Nat} {value : Word}

theorem checkAppend_of_long (h : 31 < len) : checkAppend cfg len value L = some .invalidArgument := if_pos h

theorem checkAppend_of_wide (h31 : len ≤ 31) (h : 2 ^ len ≤ value.toNat) :
    checkAppend cfg len value L = some .invalidArgument := by
  have hv : shr value len ≠ 0 := mt (shr_eq_zero_iff_lt value len).1 (Nat.not_lt.2 h)
  exact (if_neg (Nat.not_lt.2 h31)).trans (if_pos hv)

theorem checkAppend_of_full (h31 : len ≤ 31) (hv : value.toNat < 2 ^ len) (h : cfg.maxLen < L + len) :
    checkAppend cfg len value L = some .capacityExhausted := by
  have hzero : shr value len = 0 := (shr_eq_zero_iff_lt value len).2 hv
  exact (if_neg (Nat.not_lt.2 h31)).trans ((if_neg (not_not.2 hzero)).trans (if_pos h))

theorem checkAppend_of_fits (h31 : len ≤ 31) (hv : value.toNat < 2 ^ len) (h : L + len ≤ cfg.maxLen) :
    checkAppend cfg len value L = none :=
  checkAppend_none_iff.2 ⟨h31, (shr_eq_zero_iff_lt value len).2 hv, h⟩

end Tests

/-! ### The outcomes of APPEND (R82) -/

theorem appendUnder_of_error {cfg : Config} {len : BitVec 24} {value : Word} {s : State} {e : Err}
    (h : checkAppend cfg len.toNat value s.len = some e) :
    appendUnder cfg len value s = .next (raiseError opAppend e s) := by
  rw [appendUnder, h]

/-- Where the invariants hold and the tests pass, APPEND answers the per-bit append of the grown state (R82). -/
theorem appendUnder_eq_refAppend {cfg : Config} (hcfg : cfg.legal) {len : BitVec 24} {value : Word} {s : State}
    (h : Inv cfg s) (hcheck : checkAppend cfg len.toNat value s.len = none) :
    appendUnder cfg len value s =
      .next (respond opAppend [] (refAppend (grow (s.len + len.toNat) s) (runBits len.toNat value))) := by
  obtain ⟨h31, hv, hmax⟩ := checkAppend_none_iff.1 hcheck
  by_cases h0 : len.toNat = 0
  case pos =>
    obtain ⟨hfull, -⟩ := h.len
    have hgrow : grow (s.len + 0) s = s := grow_of_fits hfull
    rw [appendUnder, hcheck, h0, hgrow]
    rfl
  case neg =>
    obtain ⟨-, hlegal⟩ := hcfg
    have hready := grow_readyFor h len.toNat
    obtain ⟨t, ht, href⟩ := hready.merge_eq_refAppend (Nat.one_le_iff_ne_zero.2 h0) h31 hv (by rw [grow_len]; omega)
    rw [grow_len] at ht href
    rw [appendUnder, hcheck]
    simp only [if_neg h0, ht, completing_ok, href]

/-- Settles O10: the three tests in order (R83), and past them the per-bit append (R82). -/
theorem appendEqualsPerBitReference : Obligations.AppendEqualsPerBitReference := by
  intro s len value
  have hinvalid : statusWord opAppend Err.invalidArgument.code = 0x04000002 := by decide
  have hexhausted : statusWord opAppend Err.capacityExhausted.code = 0x04000004 := by decide
  have hok : statusWord opAppend okCode = 0x04000000 := by decide
  rw [← hinvalid, ← hexhausted, ← hok]
  refine ⟨congrArg (· :: [value]) (header_eq_or opAppend len), fun hlong => ?tooLong, fun hlen hwide => ?tooWide,
    fun hlen hfit hfull => ?full, fun hlen hfit hmax hinv => ?appended⟩
  case tooLong => exact appendUnder_of_error (checkAppend_of_long hlong)
  case tooWide => exact appendUnder_of_error (checkAppend_of_wide hlen hwide)
  case full => exact appendUnder_of_error (checkAppend_of_full hlen hfit hfull)
  case appended => exact appendUnder_eq_refAppend legal_std hinv (checkAppend_of_fits hlen hfit hmax)

end Sys2Proof.Proofs

/-! ## The bulk append on a word boundary: the fast path of APPENDW (R98, R100) -/

namespace Sys2Proof.Proofs

open Sys2Proof.Machine

/-! ### Whole words written as runs of stream bits -/

/-- The stream bits of word `w`, in stream order (R32). -/
theorem bitAt_in_word (s : State) (w : Nat) {k : Nat} (hk : k < 32) :
    bitAt s (32 * w + k) = (s.word w).getLsbD (31 - k) := by
  have hpos : 31 - (31 - k) = k := by omega
  rw [word_getLsbD s w (by omega), hpos]

theorem word_eq_of_bitAt {s : State} {w : Nat} {v : Word}
    (h : ∀ k, k < 32 → bitAt s (32 * w + k) = v.getLsbD (31 - k)) : s.word w = v := by
  apply BitVec.eq_of_getLsbD_eq
  intro p hp
  have hpos : 31 - (31 - p) = p := by omega
  rw [word_getLsbD s w hp, h _ (by omega), hpos]

section WholeWords

variable {s t : State} {w n : Nat} {f : Nat → Bool}

/-- A run of `n` whole words from word `w` on leaves in each of them the 32 bits it has for it. -/
theorem wrote_word_inside (h : Wrote s t (32 * w) (32 * n) f) {k : Nat} {v : Word} (hk : k < n)
    (hv : ∀ b, b < 32 → f (32 * k + b) = v.getLsbD (31 - b)) : t.word (w + k) = v := by
  refine word_eq_of_bitAt fun b hb => ?_
  have hindex : 32 * (w + k) + b = 32 * w + (32 * k + b) := by ring
  rw [hindex, h.run _ (by omega), hv b hb]

/-- Every other word is as before, whether it exists or not. -/
theorem wrote_word_outside (h : Wrote s t (32 * w) (32 * n) f) {j : Nat} (hj : j < w ∨ w + n ≤ j) :
    t.word j = s.word j := by
  refine word_eq_of_bitAt fun b hb => ?_
  rw [h.rest _ (by omega), bitAt_in_word s j hb]

end WholeWords

/-! ### The fast path, word by word -/

/-- From `s` to `t` the words `w .. w + n - 1` became the first `n` source words and no other word changed. -/
structure CopiedWords (s t : State) (w n : Nat) (values : List Word) : Prop where
  inside : ∀ k, k < n → t.word (w + k) = values.getD k 0
  outside : ∀ j, j < w ∨ w + n ≤ j → t.word j = s.word j

/-- Where the words exist, `copyWords` stores each source word whole (R98). -/
theorem copyWords_copiedWords {vs : List Word} {w : Nat} {s : State} (hwf : s.storage.wf = true)
    (hfit : w + vs.length ≤ s.cap) : ∃ t, copyWords vs w s = .ok t ∧ CopiedWords s t w vs.length vs := by
  obtain ⟨t, ht, hwrote⟩ := copyWords_wrote hwf hfit
  refine ⟨t, ht, fun k hk => wrote_word_inside hwrote hk fun b hb => ?_, fun j hj => wrote_word_outside hwrote hj⟩
  have hword : (32 * k + b) / 32 = k := by omega
  have hbit : (32 * k + b) % 32 = b := by omega
  rw [hword, hbit]

/-- With room for `len` bits from a word boundary on, `fastcopy` stores the `ceil(len/32)` source words used, the
partial final one as whole as the others (R98). -/
theorem fastcopy_copiedWords {s : State} {values : List Word} {len L : Nat} (hwf : s.storage.wf = true)
    (hlen : len ≤ 32 * values.length) (haligned : used L = 0) (hfit : L + len ≤ s.cap * 32) :
    ∃ t, fastcopy values len L s = .ok t ∧ CopiedWords s t (wordOf L) (wordsFor len) values := by
  have hcount : (values.take (wordsFor len)).length = wordsFor len :=
    List.length_take_of_le (by unfold wordsFor; omega)
  have hroom : wordOf L + wordsFor len ≤ s.cap := by
    unfold used at haligned
    unfold wordOf wordsFor
    omega
  obtain ⟨t, ht, hcopied⟩ := copyWords_copiedWords (w := wordOf L) hwf (hcount.symm ▸ hroom)
  rw [hcount] at hcopied
  exact ⟨t, ht, fun k hk => (hcopied.inside k hk).trans (getD_take hk), hcopied.outside⟩

/-! ### APPENDW on a word boundary -/

/-- Under the invariants growing shows in no word, not even in one beyond `cap` (R43; log entry 5). -/
theorem grow_word {cfg : Config} {s : State} (h : Inv cfg s) (need w : Nat) : (grow need s).word w = s.word w := by
  obtain ⟨hwf, hcells⟩ := h.mem
  obtain ⟨-, h64, -⟩ := h.cap
  rw [grow_eq_setCap hwf hcells (by omega), State.setCap_word]

/-- Past its tests, with something to append from a word boundary on, APPENDW ends as the fast path does. -/
theorem appendwUnder_of_fastcopy {cfg : Config} {len : Word} {values : List Word} {s u : State}
    (hcheck : checkAppendw cfg len.toNat values s.len = none) (h1 : 1 ≤ len.toNat) (haligned : used s.len = 0)
    (hu : fastcopy values len.toNat s.len (grow (s.len + len.toNat) s) = .ok u) :
    appendwUnder cfg len values s = .next (respond opAppendw [] (u.setLength (s.len + len.toNat))) := by
  have h0 : len.toNat ≠ 0 := Nat.one_le_iff_ne_zero.1 h1
  rw [appendwUnder, hcheck]
  simp only [if_neg h0, if_pos haligned, hu, completing_ok]

/-- Settles O16: the grown state has room for the run and the words of the old one; `fastcopy` stores the source words
there and the answer sets the length, which fits its register (R18, R100). -/
theorem fastCopyStoresSourceWords : Obligations.FastCopyStoresSourceWords := by
  intro s len values hinv haligned h1 hcheck
  obtain ⟨hlen, -, hmax⟩ := checkAppendw_none_iff.1 hcheck
  obtain ⟨-, hlegal⟩ := legal_std
  have hready := grow_readyFor hinv len.toNat
  obtain ⟨u, hu, hcopied⟩ := fastcopy_copiedWords hready.wf hlen haligned (by simpa using hready.fits)
  refine ⟨_, appendwUnder_of_fastcopy hcheck h1 haligned hu, ?length, hcopied.inside, fun j hj => ?others⟩
  case length => exact State.setLength_len u (by omega)
  case others => exact (hcopied.outside j hj).trans (grow_word hinv _ j)

end Sys2Proof.Proofs

/-! ## Errors and the end of the buffer: what a failed command leaves (R113), and `MAXLEN` reached exactly (R109) -/

namespace Sys2Proof.Proofs

open Sys2Proof.Machine

/-! ### A failed command leaves the buffer alone -/

/-- The last word of a response without payload has no error in it. -/
theorem err_eq_zero_of_respond_nil {op : BitVec 8} {u : State} {ws : List Word} {r : Word}
    (h : (respond op [] u).rsp = ws ++ [r]) : r.extractLsb' 0 8 = 0 := by
  rw [respond_rsp] at h
  obtain rfl : statusWord op okCode = r := List.singleton_inj.1 (List.append_inj_right' h rfl)
  exact statusWord_err op okCode

/-- INIT and the writing ends of the two appends are all that changes the buffer, and each answers OK without payload;
so a command whose last word has an error has left the buffer alone. -/
theorem execUnder_toBuffer_of_error {cfg : Config} {i : Instr} {s t : State} {ws : List Word} {r : Word}
    (h : execUnder cfg i s = .next t) (hrsp : t.rsp = ws ++ [r]) (herr : r.extractLsb' 0 8 ≠ 0) :
    t.toBuffer = s.toBuffer := by
  cases i with
  | init =>
    cases h
    exact absurd (err_eq_zero_of_respond_nil hrsp) herr
  | getbit index => rcases execGetbit_next_cases h with ⟨-, rfl⟩ | ⟨-, -, rfl⟩ <;> rfl
  | getbytes => rcases execGetbytes_next_cases h with ⟨-, rfl⟩ | ⟨-, bytes, -, rfl⟩ <;> rfl
  | append len value =>
    rcases appendUnder_next_cases h with ⟨e, -, rfl⟩ | ⟨-, -, rfl⟩ | ⟨-, -, u, -, rfl⟩
    · rfl
    · rfl
    · exact absurd (err_eq_zero_of_respond_nil hrsp) herr
  | appendw len values =>
    rcases appendwUnder_next_cases h with ⟨e, -, rfl⟩ | ⟨-, -, rfl⟩ | ⟨-, -, u, -, rfl⟩
    · rfl
    · rfl
    · exact absurd (err_eq_zero_of_respond_nil hrsp) herr
  | length =>
    cases h
    rfl

/-- The same of a step, illegal packets included (R66, R67). -/
theorem step_toBuffer_of_error {s t : State} {ws : List Word} {r : Word} (h : step s = .next t)
    (hrsp : t.rsp = ws ++ [r]) (herr : r.extractLsb' 0 8 ≠ 0) : t.toBuffer = s.toBuffer := by
  rcases stepWith_next_cases h with ⟨-, rfl⟩ | ⟨op, why, rest, -, rfl⟩ | ⟨i, rest, -, hexec⟩
  · rfl
  · rfl
  · rw [exec_eq_execUnder_std] at hexec
    exact (execUnder_toBuffer_of_error hexec hrsp herr).trans (State.setCmd_toBuffer s rest)

/-- A step that sent a word had a complete packet to answer (R61). -/
theorem decode_complete_of_sent {s t : State} {w : Word} {ws : List Word} (h : step s = .next t)
    (hrsp : t.rsp = s.rsp ++ w :: ws) : decode s.cmd ≠ .incomplete := by
  intro hd
  obtain rfl : s = t := Host.Outcome.next.inj ((stepWith_of_incomplete hd).symm.trans h)
  exact List.cons_ne_nil w ws (List.self_eq_append_right.1 hrsp)

/-- Settles O36: the word sent is the status word of the one response packet (R62), which has no payload beside an
error; and a step whose last word is an error has left the buffer alone. -/
theorem errorLeavesBufferUnchanged : Obligations.ErrorLeavesBufferUnchanged := by
  intro s t r payload hstep hrsp herr
  obtain ⟨r', payload', hrsp', hop, -, hcode⟩ :=
    oneResponsePerPacket s t (decode_complete_of_sent hstep hrsp) hstep
  obtain ⟨rfl, rfl⟩ := List.cons.inj (List.append_cancel_left (hrsp.symm.trans hrsp'))
  obtain ⟨-, -, rfl⟩ := hcode.resolve_left herr
  have hbuffer : t.toBuffer = s.toBuffer := step_toBuffer_of_error hstep hrsp herr
  exact ⟨congrArg Buffer.storage hbuffer, congrArg Buffer.cap hbuffer, congrArg Buffer.bitLength hbuffer, rfl, hop⟩

/-! ### The outcomes of APPENDW (R93) -/

theorem appendwUnder_of_error {cfg : Config} {len : Word} {values : List Word} {s : State} {e : Err}
    (h : checkAppendw cfg len.toNat values s.len = some e) :
    appendwUnder cfg len values s = .next (raiseError opAppendw e s) := by
  rw [appendwUnder, h]

theorem checkAppendw_of_full {cfg : Config} {len L : Nat} {values : List Word} (hlen : len ≤ 32 * values.length)
    (hclean : dirtyTail len values = false) (h : cfg.maxLen < L + len) :
    checkAppendw cfg len values L = some .capacityExhausted :=
  (if_neg (Nat.not_lt.2 hlen)).trans ((if_neg (ne_true_of_eq_false hclean)).trans (if_pos h))

/-- The equivalence with the per-bit reference on either path (R98, R99): the copy answers, and with the length set it
has appended the source bits one by one. -/
theorem ReadyFor.copy_eq_refAppend {s : State} {len : Nat} {values : List Word} (h : ReadyFor s len)
    (hlen : len ≤ 32 * values.length) (hclean : dirtyTail len values = false) (h32 : s.len + len < 2 ^ 32) :
    ∃ t, (if used s.len = 0 then fastcopy values len s.len s else shiftmerge values len s.len s) = .ok t ∧
      t.setLength (s.len + len) = refAppend s (sourceBits len values) := by
  have hset : ∀ t, Wrote s t s.len len (sourceBit values) →
      t.setLength (s.len + len) = refAppend s (sourceBits len values) := fun t hw =>
    h.setLength_eq_refAppend (sourceBits_length len values) h32 (hw.congr fun k hk => (sourceBits_getD values hk).symm)
  split_ifs with haligned
  · obtain ⟨t, ht, hw⟩ := fastcopy_wrote h.wf h.tail hlen hclean haligned h.fits
    exact ⟨t, ht, hset t hw⟩
  · obtain ⟨t, ht, hw⟩ := shiftmerge_wrote h.wf h.tail hlen haligned h.fits
    exact ⟨t, ht, hset t hw⟩

/-- Where the invariants hold and the tests pass, APPENDW answers the per-bit append of the grown state (R93). -/
theorem appendwUnder_eq_refAppend {cfg : Config} (hcfg : cfg.legal) {len : Word} {values : List Word} {s : State}
    (h : Inv cfg s) (hcheck : checkAppendw cfg len.toNat values s.len = none) :
    appendwUnder cfg len values s =
      .next (respond opAppendw [] (refAppend (grow (s.len + len.toNat) s) (sourceBits len.toNat values))) := by
  obtain ⟨hlen, hclean, hmax⟩ := checkAppendw_none_iff.1 hcheck
  by_cases h0 : len.toNat = 0
  case pos =>
    obtain ⟨hfull, -⟩ := h.len
    have hgrow : grow (s.len + 0) s = s := grow_of_fits hfull
    rw [appendwUnder, hcheck, h0, hgrow]
    rfl
  case neg =>
    obtain ⟨-, hlegal⟩ := hcfg
    have hready := grow_readyFor h len.toNat
    obtain ⟨t, ht, href⟩ := hready.copy_eq_refAppend hlen hclean (by rw [grow_len]; omega)
    rw [grow_len] at ht href
    rw [appendwUnder, hcheck]
    simp only [if_neg h0, ht, completing_ok, href]

/-! ### What the per-bit append of the grown state answers -/

theorem refAppend_rsp (s : State) (bits : List Bool) : (refAppend s bits).rsp = s.rsp := by
  induction bits generalizing s with
  | nil => rfl
  | cons b bits ih => exact ih (refAppendBit s b)

/-- The length after an append that `MAXLEN` allows, which fits the 32-bit register (R7, R18). -/
theorem refAppend_grow_len {cfg : Config} (hcfg : cfg.legal) {s : State} (h : Inv cfg s) {n : Nat} {bits : List Bool}
    (hn : bits.length = n) (hmax : s.len + n ≤ cfg.maxLen) :
    (refAppend (grow (s.len + n) s) bits).len = s.len + n := by
  subst hn
  obtain ⟨-, hlegal⟩ := hcfg
  have h32 : s.len + bits.length < 2 ^ 32 := by omega
  have hready := grow_readyFor h bits.length
  obtain ⟨u, -, href⟩ := refAppend_eq bits hready.wf hready.tail hready.fits (by rwa [grow_len])
  rw [href, grow_len, State.setLength_len u h32]

/-- Reaching `MAXLEN` exactly: the answer both appends give has that length and status OK. -/
theorem answer_at_maxLen {cfg : Config} (hcfg : cfg.legal) {s : State} (h : Inv cfg s) (op : BitVec 8) {n : Nat}
    {bits : List Bool} (hn : bits.length = n) (hreach : s.len + n = cfg.maxLen) :
    (respond op [] (refAppend (grow (s.len + n) s) bits)).len = cfg.maxLen ∧
      (respond op [] (refAppend (grow (s.len + n) s) bits)).rsp = s.rsp ++ [statusWord op okCode] := by
  refine ⟨?length, ?answer⟩
  case length => rw [respond_len, refAppend_grow_len hcfg h hn hreach.le, hreach]
  case answer => rw [respond_rsp, refAppend_rsp, grow_rsp]

/-- Settles O22: past `MAXLEN` the third test of either append fails; at `MAXLEN` every test passes, and the answer is
the per-bit append's. -/
theorem maxlenIsReachedExactly : Obligations.MaxlenIsReachedExactly := by
  intro cfg s hcfg
  have hfullAppend : statusWord opAppend Err.capacityExhausted.code = 0x04000004 := by decide
  have hokAppend : statusWord opAppend okCode = 0x04000000 := by decide
  have hfullAppendw : statusWord opAppendw Err.capacityExhausted.code = 0x05000004 := by decide
  have hokAppendw : statusWord opAppendw okCode = 0x05000000 := by decide
  rw [← hfullAppend, ← hokAppend, ← hfullAppendw, ← hokAppendw]
  refine ⟨fun len value h31 hv => ⟨fun hfull => ?appendPast, fun hreach hinv => ?appendAt⟩,
    fun len values hlen hclean => ⟨fun hfull => ?appendwPast, fun hreach hinv => ?appendwAt⟩⟩
  case appendPast => exact appendUnder_of_error (checkAppend_of_full h31 hv hfull)
  case appendAt =>
    exact ⟨_, appendUnder_eq_refAppend hcfg hinv (checkAppend_of_fits h31 hv hreach.le),
      answer_at_maxLen hcfg hinv opAppend (runBits_length _ value) hreach⟩
  case appendwPast => exact appendwUnder_of_error (checkAppendw_of_full hlen hclean hfull)
  case appendwAt =>
    exact ⟨_, appendwUnder_eq_refAppend hcfg hinv (checkAppendw_none_iff.2 ⟨hlen, hclean, hreach.le⟩),
      answer_at_maxLen hcfg hinv opAppendw (sourceBits_length _ values) hreach⟩

end Sys2Proof.Proofs

/-! ## Reset (R120, R124) -/

namespace Sys2Proof.Proofs

open Sys2Proof.Machine

/-- Nothing of the state reset finds survives it (R124). -/
@[simp] theorem assertReset_eq_reset (s : State) : s.assertReset = State.reset := rfl

/-- Settles O1: reset forgets the state it finds, and the buffer it leaves is the constructed one, whose words are all
0, those below `cap` among them. -/
theorem resetIsConstructedBuffer : Obligations.ResetIsConstructedBuffer := by
  intro s
  rw [assertReset_eq_reset]
  have hbuffer : State.reset.toBuffer = Buffer.constructed := State.reset_toBuffer
  refine ⟨rfl, ?bitLength, ?cap, fun w _ => word_eq_zero_of_constructed hbuffer w⟩
  case bitLength => rw [hbuffer, Buffer.constructed_bitLength]
  case cap => rw [hbuffer, Buffer.constructed_cap, CAP0]

end Sys2Proof.Proofs

/-! ## The encoding: decoding and encoding undo each other (R55 to R60), and a stream splits into packets (R69) -/

namespace Sys2Proof.Proofs

open Sys2Proof.Machine

/-! ### Decoding what was encoded -/

/-- A header the encoder writes with `a = 0` passes the test of R67. -/
theorem ifNoArgument_header_zero (op : BitVec 8) (i : Instr) (rest : List Word) :
    ifNoArgument (header op 0) i rest = .command i rest :=
  ifNoArgument_zero i rest (headerArg_header op 0)

/-- The packet of an APPENDW tells the decoder how many source words it has (R59). -/
theorem decode_encode_appendw {len : Word} {values : List Word} (hcount : values.length ≤ COUNTMAX)
    (rest : List Word) :
    decode (encode (.appendw len values) ++ rest) = .command (.appendw len values) rest := by
  have harg : (headerArg (header opAppendw (BitVec.ofNat 24 values.length))).toNat = values.length := by
    rw [headerArg_header, BitVec.toNat_ofNat, Nat.mod_eq_of_lt (by unfold COUNTMAX at hcount; omega)]
  have hcomplete : ¬ (values ++ rest).length < values.length := by simp
  have hd := decode_appendw len (values ++ rest) (headerOp_header opAppendw (BitVec.ofNat 24 values.length))
  rw [harg, if_neg hcomplete, List.take_left, List.drop_left] at hd
  exact hd

/-- Settles O23, command by command. -/
theorem decodeEncodeRoundTrip : Obligations.DecodeEncodeRoundTrip := by
  intro i rest hwf
  cases i with
  | init => exact (decode_init rest (headerOp_header opInit 0)).trans (ifNoArgument_header_zero _ _ rest)
  | getbit index =>
    exact (decode_getbit index rest (headerOp_header opGetbit 0)).trans (ifNoArgument_header_zero _ _ rest)
  | getbytes => exact (decode_getbytes rest (headerOp_header opGetbytes 0)).trans (ifNoArgument_header_zero _ _ rest)
  | append len value =>
    have hd := decode_append value rest (headerOp_header opAppend len)
    rwa [headerArg_header] at hd
  | appendw len values => exact decode_encode_appendw (of_decide_eq_true hwf) rest
  | length => exact (decode_length rest (headerOp_header opLength 0)).trans (ifNoArgument_header_zero _ _ rest)

/-! ### Encoding what was decoded -/

/-- A command read past the test of R67 had `a = 0`, so its header is its opcode's. -/
theorem ifNoArgument_eq_command {h : Word} {i j : Instr} {t rest : List Word}
    (hd : ifNoArgument h i t = .command j rest) : h = header (headerOp h) 0 ∧ j = i ∧ rest = t := by
  unfold ifNoArgument at hd
  split_ifs at hd with ha
  cases hd
  exact ⟨by rw [← ha, header_eta], rfl, rfl⟩

/-- The header of an APPENDW packet counts the source words that were taken with it (R59). -/
theorem encode_take_appendw {h len : Word} {ws : List Word} (hop : headerOp h = opAppendw)
    (hcount : (headerArg h).toNat ≤ ws.length) :
    (Instr.appendw len (ws.take (headerArg h).toNat)).wf = true ∧
      h :: len :: ws = encode (.appendw len (ws.take (headerArg h).toNat)) ++ ws.drop (headerArg h).toNat := by
  have hlength : (ws.take (headerArg h).toNat).length = (headerArg h).toNat := List.length_take_of_le hcount
  constructor
  · have hlt := (headerArg h).isLt
    refine decide_eq_true ?_
    rw [hlength]
    unfold COUNTMAX
    omega
  · have hheader : header opAppendw (BitVec.ofNat 24 (ws.take (headerArg h).toNat).length) = h := by
      rw [hlength, BitVec.ofNat_toNat, BitVec.setWidth_eq, ← hop, header_eta]
    rw [encode, hheader, List.cons_append, List.cons_append, List.take_append_drop]

/-- Settles O24, opcode by opcode: each field of the packet is in the command that was read. -/
theorem decodedPacketIsItsEncoding : Obligations.DecodedPacketIsItsEncoding := by
  intro ws rest i hd
  cases ws with
  | nil => cases hd
  | cons h t =>
    have hcomplete : decode (h :: t) ≠ .incomplete := by rw [hd]; exact Decoded.noConfusion
    have hfit := packetWords_le_of_complete hcomplete
    rcases op_cases (headerOp h) with hop | hop | hop | hop | hop | hop | hop
    · rw [decode_init t hop] at hd
      obtain ⟨hh, rfl, rfl⟩ := ifNoArgument_eq_command hd
      exact ⟨rfl, congrArg (· :: rest) (hop ▸ hh)⟩
    · obtain ⟨o1, t, rfl⟩ := exists_operand (packetWords_two (.inl hop)).ge hfit
      rw [decode_getbit o1 t hop] at hd
      obtain ⟨hh, rfl, rfl⟩ := ifNoArgument_eq_command hd
      exact ⟨rfl, congrArg (· :: o1 :: rest) (hop ▸ hh)⟩
    · rw [decode_getbytes t hop] at hd
      obtain ⟨hh, rfl, rfl⟩ := ifNoArgument_eq_command hd
      exact ⟨rfl, congrArg (· :: rest) (hop ▸ hh)⟩
    · obtain ⟨o1, t, rfl⟩ := exists_operand (packetWords_two (.inr hop)).ge hfit
      rw [decode_append o1 t hop] at hd
      cases hd
      exact ⟨rfl, congrArg (· :: o1 :: rest) (header_of_op hop)⟩
    · obtain ⟨len, ws, rfl⟩ := exists_operand (by rw [packetWords_appendw hop]; omega) hfit
      rw [decode_appendw len ws hop] at hd
      split_ifs at hd with hshort
      cases hd
      exact encode_take_appendw hop (Nat.not_lt.1 hshort)
    · rw [decode_length t hop] at hd
      obtain ⟨hh, rfl, rfl⟩ := ifNoArgument_eq_command hd
      exact ⟨rfl, congrArg (· :: rest) (hop ▸ hh)⟩
    · rw [decode_reserved t hop] at hd
      cases hd

/-- Settles O25, packet by packet, by running the decoder. -/
theorem sampleWordsDecode : Obligations.SampleWordsDecode := by
  refine ⟨?_, ?_, ?_, ?_, ?_, ?_, ?_, ?_, ?_⟩ <;> decide

/-! ### A complete packet is read the same whatever follows it -/

/-- What was read, with these words after the ones left over. -/
def followedBy (tail : List Word) : Decoded → Decoded
  | .incomplete => .incomplete
  | .illegal op why rest => .illegal op why (rest ++ tail)
  | .command i rest => .command i (rest ++ tail)

theorem followedBy_ifNoArgument (tail : List Word) (h : Word) (i : Instr) (rest : List Word) :
    followedBy tail (ifNoArgument h i rest) = ifNoArgument h i (rest ++ tail) := by
  unfold ifNoArgument
  split_ifs <;> rfl

theorem decode_append_right {ws : List Word} (hcomplete : decode ws ≠ .incomplete) (tail : List Word) :
    decode (ws ++ tail) = followedBy tail (decode ws) := by
  cases ws with
  | nil => exact absurd rfl hcomplete
  | cons h t =>
    have hfit := packetWords_le_of_complete hcomplete
    rcases op_cases (headerOp h) with hop | hop | hop | hop | hop | hop | hop
    · rw [decode_init t hop, followedBy_ifNoArgument]
      exact decode_init (t ++ tail) hop
    · obtain ⟨o1, t, rfl⟩ := exists_operand (packetWords_two (.inl hop)).ge hfit
      rw [decode_getbit o1 t hop, followedBy_ifNoArgument]
      exact decode_getbit o1 (t ++ tail) hop
    · rw [decode_getbytes t hop, followedBy_ifNoArgument]
      exact decode_getbytes (t ++ tail) hop
    · obtain ⟨o1, t, rfl⟩ := exists_operand (packetWords_two (.inr hop)).ge hfit
      rw [decode_append o1 t hop]
      exact decode_append o1 (t ++ tail) hop
    · obtain ⟨len, ws, rfl⟩ := exists_operand (by rw [packetWords_appendw hop]; omega) hfit
      rw [packetWords_appendw hop, List.length_cons, List.length_cons] at hfit
      have hcount : (headerArg h).toNat ≤ ws.length := by omega
      have hlonger : (headerArg h).toNat ≤ (ws ++ tail).length := by rw [List.length_append]; omega
      have hd := decode_appendw len (ws ++ tail) hop
      rw [if_neg (Nat.not_lt.2 hlonger), List.take_append_of_le_length hcount,
        List.drop_append_of_le_length hcount] at hd
      rw [decode_appendw len ws hop, if_neg (Nat.not_lt.2 hcount)]
      exact hd
    · rw [decode_length t hop, followedBy_ifNoArgument]
      exact decode_length (t ++ tail) hop
    · rw [decode_reserved t hop]
      exact decode_reserved (t ++ tail) hop

/-! ### The split of a stream into packets (R69) -/

/-- Words of the length their header tells. -/
def FullPacket (q : List Word) : Prop := ∃ h t, q = h :: t ∧ q.length = packetWords h

/-- No words, or fewer than their header tells. -/
def ShortPacket (r : List Word) : Prop := r = [] ∨ ∃ h t, r = h :: t ∧ r.length < packetWords h

/-- A split of a word sequence: full packets, then what is no full packet yet. -/
def IsSplit (ws : List Word) (qs : List (List Word)) (r : List Word) : Prop :=
  ws = qs.flatten ++ r ∧ (∀ q ∈ qs, FullPacket q) ∧ ShortPacket r

/-- The header tells where the first packet ends, so two sequences that begin with one begin with the same. -/
theorem fullPacket_append_inj {q q' x x' : List Word} (hq : FullPacket q) (hq' : FullPacket q')
    (heq : q ++ x = q' ++ x') : q = q' ∧ x = x' := by
  obtain ⟨h, t, rfl, hlen⟩ := hq
  obtain ⟨h', t', rfl, hlen'⟩ := hq'
  obtain rfl : h = h' := (List.cons.inj heq).1
  exact List.append_inj heq (hlen.trans hlen'.symm)

/-- Where a full packet begins, the sequence is not a short one. -/
theorem not_shortPacket_append {q : List Word} (hq : FullPacket q) (x : List Word) : ¬ ShortPacket (q ++ x) := by
  obtain ⟨h, t, rfl, hlen⟩ := hq
  rintro (hnil | ⟨h', t', heq, hshort⟩)
  · cases hnil
  · obtain rfl : h = h' := (List.cons.inj heq).1
    rw [List.length_append] at hshort
    omega

theorem isSplit_cons {ws q : List Word} {qs : List (List Word)} {r : List Word} (hq : FullPacket q)
    (h : IsSplit ws qs r) : IsSplit (q ++ ws) (q :: qs) r := by
  obtain ⟨rfl, hall, hr⟩ := h
  exact ⟨(List.append_assoc q _ r).symm, List.forall_mem_cons.2 ⟨hq, hall⟩, hr⟩

/-- A split exists: take off the first packet while it is full. -/
theorem exists_isSplit (ws : List Word) : ∃ qs r, IsSplit ws qs r := by
  induction hn : ws.length using Nat.strong_induction_on generalizing ws with
  | _ n ih =>
    cases ws with
    | nil => exact ⟨[], [], rfl, by simp, .inl rfl⟩
    | cons h t =>
      by_cases hshort : (h :: t).length < packetWords h
      · exact ⟨[], h :: t, rfl, by simp, .inr ⟨h, t, rfl, hshort⟩⟩
      · have hpos := packetWords_pos h
        have hfull : FullPacket ((h :: t).take (packetWords h)) :=
          ⟨h, t.take (packetWords h - 1), List.take_cons hpos, List.length_take_of_le (Nat.not_lt.1 hshort)⟩
        have hless : ((h :: t).drop (packetWords h)).length < n := by
          rw [← hn, List.length_drop, List.length_cons]
          omega
        obtain ⟨qs, r, hsplit⟩ := ih _ hless _ rfl
        have hcons := isSplit_cons hfull hsplit
        rw [List.take_append_drop] at hcons
        exact ⟨_, _, hcons⟩

/-- Two splits of one sequence agree packet by packet. -/
theorem isSplit_unique {ws : List Word} {qs qs' : List (List Word)} {r r' : List Word} (h : IsSplit ws qs r)
    (h' : IsSplit ws qs' r') : qs = qs' ∧ r = r' := by
  induction qs generalizing ws qs' with
  | nil =>
    obtain ⟨rfl, -, hr⟩ := h
    obtain ⟨heq, hall', -⟩ := h'
    cases qs' with
    | nil => exact ⟨rfl, heq⟩
    | cons q' qs' =>
      obtain ⟨hq', -⟩ := List.forall_mem_cons.1 hall'
      rw [List.flatten_cons, List.append_assoc] at heq
      exact absurd (heq ▸ hr) (not_shortPacket_append hq' _)
  | cons q qs ih =>
    obtain ⟨rfl, hall, hr⟩ := h
    obtain ⟨heq, hall', hr'⟩ := h'
    obtain ⟨hq, hqs⟩ := List.forall_mem_cons.1 hall
    rw [List.flatten_cons, List.append_assoc] at heq
    cases qs' with
    | nil =>
      rw [List.flatten_nil, List.nil_append] at heq
      exact absurd (heq ▸ hr') (not_shortPacket_append hq _)
    | cons q' qs' =>
      obtain ⟨hq', hqs'⟩ := List.forall_mem_cons.1 hall'
      rw [List.flatten_cons, List.append_assoc] at heq
      obtain ⟨rfl, htail⟩ := fullPacket_append_inj hq hq' heq
      obtain ⟨rfl, rfl⟩ := ih ⟨rfl, hqs, hr⟩ ⟨htail, hqs', hr'⟩
      exact ⟨rfl, rfl⟩

/-- Settles O30: the split exists and is the only one. -/
theorem streamSplitsUniquely : Obligations.StreamSplitsUniquely := by
  intro ws
  obtain ⟨qs, r, hsplit⟩ := exists_isSplit ws
  refine ⟨(qs, r), hsplit, ?_⟩
  rintro ⟨qs', r'⟩ hsplit'
  obtain ⟨rfl, rfl⟩ := isSplit_unique hsplit' hsplit
  rfl

end Sys2Proof.Proofs

/-! ## The ports: what a packet does is told by the buffer and the packet alone (R31) -/

namespace Sys2Proof.Proofs

open Sys2Proof.Machine

/-! ### Commands take no notice of the ports -/

/-- An outcome with these words put at the ports of the next state, if there is one. -/
def withPorts (c r : List Word) : Host.Outcome State Fault Refusal → Host.Outcome State Fault Refusal
  | .next t => .next (t.withPorts c r)
  | .fault f => .fault f
  | .refused e => .refused e

theorem respond_withPorts (c r : List Word) (op : BitVec 8) (payload : List Word) (s : State) :
    respond op payload (s.withPorts c r) = (respond op payload s).withPorts c r :=
  State.emit_withPorts c r s _

theorem raiseError_withPorts (c r : List Word) (op : BitVec 8) (e : Err) (s : State) :
    raiseError op e (s.withPorts c r) = (raiseError op e s).withPorts c r :=
  State.emit_withPorts c r s _

/-- The writing end of an append sets the length and answers, with the ports as they are. -/
theorem completing_withPorts (c r : List Word) (x : Except Fault State) (op : BitVec 8) (n : Nat) :
    completing (x.map (State.withPorts c r)) (fun t => respond op [] (t.setLength n)) =
      withPorts c r (completing x fun t => respond op [] (t.setLength n)) := by
  cases x with
  | error f => rfl
  | ok u => exact congrArg Host.Outcome.next (respond_withPorts c r op [] (u.setLength n))

section Commands

variable (c r : List Word) (s : State)

theorem execInit_withPorts : execInit (s.withPorts c r) = withPorts c r (execInit s) :=
  congrArg Host.Outcome.next (respond_withPorts c r opInit [] (construct s))

theorem execGetbit_withPorts (index : Word) :
    execGetbit index (s.withPorts c r) = withPorts c r (execGetbit index s) := by
  unfold execGetbit
  rw [State.withPorts_len, memRead_withPorts]
  split_ifs
  · cases memRead (wordOf index.toNat) s with
    | error f => rfl
    | ok v => exact congrArg Host.Outcome.next (respond_withPorts c r _ _ s)
  · exact congrArg Host.Outcome.next (raiseError_withPorts c r _ _ s)

theorem execGetbytes_withPorts : execGetbytes (s.withPorts c r) = withPorts c r (execGetbytes s) := by
  unfold execGetbytes
  rw [State.withPorts_len, readStreamBytes_withPorts]
  split_ifs
  · cases readStreamBytes (s.len / 8) 0 s with
    | error f => rfl
    | ok bytes => exact congrArg Host.Outcome.next (respond_withPorts c r _ _ s)
  · exact congrArg Host.Outcome.next (raiseError_withPorts c r _ _ s)

theorem appendUnder_withPorts (cfg : Config) (len : BitVec 24) (value : Word) :
    appendUnder cfg len value (s.withPorts c r) = withPorts c r (appendUnder cfg len value s) := by
  unfold appendUnder
  rw [State.withPorts_len]
  cases checkAppend cfg len.toNat value s.len with
  | some e => exact congrArg Host.Outcome.next (raiseError_withPorts c r opAppend e s)
  | none =>
    simp only [grow_withPorts, merge_withPorts]
    split_ifs
    · exact congrArg Host.Outcome.next (respond_withPorts c r opAppend [] s)
    · exact completing_withPorts c r _ opAppend _

theorem appendwUnder_withPorts (cfg : Config) (len : Word) (values : List Word) :
    appendwUnder cfg len values (s.withPorts c r) = withPorts c r (appendwUnder cfg len values s) := by
  unfold appendwUnder
  rw [State.withPorts_len]
  cases checkAppendw cfg len.toNat values s.len with
  | some e => exact congrArg Host.Outcome.next (raiseError_withPorts c r opAppendw e s)
  | none =>
    simp only [grow_withPorts, fastcopy_withPorts, shiftmerge_withPorts]
    split_ifs
    · exact congrArg Host.Outcome.next (respond_withPorts c r opAppendw [] s)
    · exact completing_withPorts c r _ opAppendw _
    · exact completing_withPorts c r _ opAppendw _

/-- No command reads a port: it runs with words there as it runs without them. -/
theorem execUnder_withPorts (cfg : Config) (i : Instr) :
    execUnder cfg i (s.withPorts c r) = withPorts c r (execUnder cfg i s) := by
  cases i with
  | init => exact execInit_withPorts c r s
  | getbit index => exact execGetbit_withPorts c r s index
  | getbytes => exact execGetbytes_withPorts c r s
  | append len value => exact appendUnder_withPorts c r s cfg len value
  | appendw len values => exact appendwUnder_withPorts c r s cfg len values
  | length => exact congrArg Host.Outcome.next (respond_withPorts c r opLength _ s)

end Commands

/-! ### The block inside the machine -/

/-- The ports of `s` put around what the block answered are those words put at its ports. -/
theorem atPorts_answered (s : State) (x : Host.Outcome State Fault Refusal) :
    atPorts s (answered x) = withPorts s.cmd s.rsp x := by
  cases x <;> rfl

theorem execUnder_eq_blockStep (cfg : Config) (i : Instr) (s : State) :
    execUnder cfg i s = atPorts s (blockStep cfg (.command i) s.toBuffer) := by
  have halone : s = s.toBuffer.alone.withPorts s.cmd s.rsp := State.eq_alone_withPorts s
  rw [blockStep, atPorts_answered, ← execUnder_withPorts, ← halone]

theorem answerIllegal_eq_blockStep (cfg : Config) (op : BitVec 8) (s : State) :
    answerIllegal op s = atPorts s (blockStep cfg (.illegal op) s.toBuffer) := by
  have halone : s = s.toBuffer.alone.withPorts s.cmd s.rsp := State.eq_alone_withPorts s
  have hanswer : raiseError op .illegalCommand s =
      (raiseError op .illegalCommand s.toBuffer.alone).withPorts s.cmd s.rsp := by
    rw [← raiseError_withPorts, ← halone]
  exact congrArg Host.Outcome.next hanswer

/-- Settles O52: the block's step on a packet is the machine's between its ports. -/
theorem blockStepNeedsNoPorts : Obligations.BlockStepNeedsNoPorts := by
  intro cfg s
  refine ⟨fun i => execUnder_eq_blockStep cfg i s, fun i rest hd => ?command, fun op why rest hd => ?illegal⟩
  case command => exact (stepWith_of_command hd).trans (execUnder_eq_blockStep cfg i (s.setCmd rest))
  case illegal => exact (stepWith_of_illegal hd).trans (answerIllegal_eq_blockStep cfg op (s.setCmd rest))

/-! ### Steps on a stream of packets -/

/-- Settles O42, by the definitions of `exec` and `step` (R7). -/
theorem defaultInstanceIsStep : Obligations.DefaultInstanceIsStep :=
  ⟨rfl, exec_eq_execUnder_std, fun s => congrArg (stepWith · s) (funext₂ exec_eq_execUnder_std)⟩

theorem step_eq_stepUnder_std (s : State) : step s = stepUnder Config.std s :=
  defaultInstanceIsStep.2.2 s

/-- Settles O31: the packet of a command is decoded to the command. -/
theorem stepRunsDecodedCommand : Obligations.StepRunsDecodedCommand := by
  intro s i rest hwf hcmd
  have hd : decode s.cmd = .command i rest := hcmd ▸ decodeEncodeRoundTrip i rest hwf
  exact stepWith_of_command hd

/-- A command leaves the words waiting after it alone, so it runs with other words waiting as it runs without. -/
theorem execUnder_setCmd {cfg : Config} {i : Instr} {s t : State} (h : execUnder cfg i s = .next t)
    (ws : List Word) : t.cmd = s.cmd ∧ execUnder cfg i (s.setCmd ws) = .next (t.setCmd ws) := by
  rw [execUnder_eq_blockStep] at h ⊢
  rw [State.setCmd_toBuffer]
  cases hblock : blockStep cfg (.command i) s.toBuffer with
  | next a =>
    rw [hblock] at h
    cases h
    exact ⟨rfl, rfl⟩
  | fault f => rw [hblock] at h; cases h
  | refused e => rw [hblock] at h; cases h

theorem execAll_cons_next {cfg : Config} {i : Instr} {is : List Instr} {s t : State}
    (h : execAll cfg (i :: is) s = .next t) : ∃ u, execUnder cfg i s = .next u ∧ execAll cfg is u = .next t := by
  unfold execAll at h
  split at h
  · rename_i u hu
    exact ⟨u, hu, h⟩
  · cases h
  · cases h

/-- A run takes its first step, then the others. -/
theorem core_run_succ (M : Host.Core) {s u : M.State} (h : M.step s = .next u) (n : Nat) :
    M.run (n + 1) s = M.run n u := by
  rw [Host.Core.run, h]

theorem run_succ_of_step {s u : State} (h : step s = .next u) (n : Nat) :
    Sys2Proof.core.run (n + 1) s = Sys2Proof.core.run n u :=
  core_run_succ Sys2Proof.core h n

/-- Settles O32, by induction on the commands: a step runs the first one, which leaves the packets after it waiting. -/
theorem streamRunsCommandsInOrder : Obligations.StreamRunsCommandsInOrder := by
  intro is
  induction is with
  | nil =>
    intro s t _ h
    cases h
    rfl
  | cons i is ih =>
    intro s t hwf h
    obtain ⟨hi, his⟩ := List.forall_mem_cons.1 hwf
    obtain ⟨u, hu, ht⟩ := execAll_cons_next h
    obtain ⟨hcmd, hexec⟩ := execUnder_setCmd hu (is.flatMap encode ++ u.cmd)
    have hstream : (i :: is).flatMap encode ++ s.cmd = encode i ++ (is.flatMap encode ++ u.cmd) := by
      rw [List.flatMap_cons, List.append_assoc, hcmd]
    have hstep : step (s.setCmd ((i :: is).flatMap encode ++ s.cmd)) =
        .next (u.setCmd (is.flatMap encode ++ u.cmd)) := by
      rw [stepRunsDecodedCommand _ i (is.flatMap encode ++ u.cmd) hi hstream, exec_eq_execUnder_std]
      exact hexec
    exact (run_succ_of_step hstep _).trans (ih u t his ht)

/-! ### Waiting, and reset of the streams -/

/-- Settles O29: a packet without all its words is incomplete, with all of them it is not. -/
theorem incompletePacketWaits : Obligations.IncompletePacketWaits := by
  intro s
  refine ⟨fun hcmd => ?empty, fun h t hcmd hshort => ⟨?short, fun ws hdelivered => ?complete⟩⟩
  case empty => exact stepWith_of_incomplete (congrArg decode hcmd)
  case short => exact stepWith_of_incomplete (hcmd ▸ decode_of_short hshort)
  case complete =>
    have hstream : (s.deliver ws).cmd = h :: (t ++ ws) := by
      rw [State.deliver, State.setCmd_cmd, hcmd, List.cons_append]
    have hfit : packetWords h ≤ (h :: (t ++ ws)).length := by
      rw [← List.cons_append, List.length_append]
      exact hdelivered
    rw [hstream]
    rcases decode_complete hfit with ⟨i, hd, -⟩ | ⟨why, hd⟩ <;> rw [hd] <;> exact Decoded.noConfusion

/-- Settles O2: the reset state holds no words. -/
theorem resetEmptiesStreams : Obligations.ResetEmptiesStreams := by
  intro s ws
  rw [assertReset_eq_reset]
  exact ⟨State.reset_cmd, State.reset_rsp, rfl⟩

end Sys2Proof.Proofs

/-! ## The memory: one word at a time (R38, R39), and how far growth goes (R42, R44) -/

namespace Sys2Proof.Proofs

open Sys2Proof.Machine

/-! ### Word access -/

/-- Settles O45: both accesses test the index against `cap`. -/
theorem accessBeyondCapFaults : Obligations.AccessBeyondCapFaults := by
  intro s w v hbeyond
  have hw : ¬ w < s.cap := Nat.not_lt.2 hbeyond
  exact ⟨if_neg hw, if_neg hw⟩

/-- Settles O44, by the laws of reading a word after writing one. -/
theorem wordAccessTouchesOneWord : Obligations.WordAccessTouchesOneWord := by
  intro s w v hwf hw
  have hsame : (s.setStorage (s.storage.writeWord w v)).word w = v := by
    rw [State.setStorage_word, Memory.readWord_writeWord_self hwf]
  refine ⟨memRead_of_lt hw, _, memWrite_of_lt hw, hsame, ?read, fun j hj => ?other, rfl, rfl, rfl, rfl,
    Memory.writeWord_wf hwf w v⟩
  case read => rw [memRead_of_lt (by rwa [State.setStorage_cap]), hsame]
  case other =>
    rw [State.setStorage_word, Memory.readWord_writeWord_of_ne s.storage v hj]
    rfl

/-! ### The first capacity that fits -/

/-- `c'` is `c` doubled until it holds `need` bits, and no further (R42). -/
structure LeastFit (c need c' : Nat) : Prop where
  doublings : ∃ k, c' = c * 2 ^ k
  fits : need ≤ c' * 32
  least : ∀ j, need ≤ c * 2 ^ j * 32 → c' ≤ c * 2 ^ j

/-- `Grow(need)` goes to the first capacity that fits (R42). -/
theorem grow_leastFit {s : State} (hpos : 1 ≤ s.cap) (need : Nat) : LeastFit s.cap need (grow need s).cap :=
  ⟨(grow_growsTo hpos).doublings, grow_fits hpos, fun _ => grow_least⟩

section LeastFit

variable {c c' c'' need need' : Nat}

theorem LeastFit.unique (h : LeastFit c need c') (h' : LeastFit c need c'') : c' = c'' := by
  obtain ⟨k, hk⟩ := h.doublings
  obtain ⟨k', hk'⟩ := h'.doublings
  apply Nat.le_antisymm
  · rw [hk']
    exact h.least k' (hk' ▸ h'.fits)
  · rw [hk]
    exact h'.least k (hk ▸ h.fits)

theorem LeastFit.le (h : LeastFit c need c') : c ≤ c' := by
  obtain ⟨k, hk⟩ := h.doublings
  rw [hk]
  exact Nat.le_mul_of_pos_right c (Nat.two_pow_pos k)

/-- A capacity that fits stays. -/
theorem LeastFit.eq_of_fits (h : LeastFit c need c') (hfits : need ≤ c * 32) : c' = c :=
  Nat.le_antisymm (by simpa using h.least 0 (by simpa using hfits)) h.le

/-- A capacity that is short, and whose double is not, is doubled once (R86). -/
theorem LeastFit.eq_double (h : LeastFit c need c') (hshort : c * 32 < need) (hfits : need ≤ 2 * c * 32) :
    c' = 2 * c := by
  obtain ⟨k, hk⟩ := h.doublings
  have hle : c' ≤ c * 2 ^ 1 := h.least 1 (by rw [pow_one, Nat.mul_comm c 2]; exact hfits)
  have henough := h.fits
  cases k with
  | zero =>
    rw [pow_zero, Nat.mul_one] at hk
    omega
  | succ k =>
    have hge : c * 2 ^ 1 ≤ c' := hk ▸ Nat.mul_le_mul_left c (Nat.pow_le_pow_right (by norm_num) (by omega))
    omega

/-- Growing for a first run and then for a longer one is growing for the longer one. -/
theorem LeastFit.trans (hpos : 1 ≤ c) (h : LeastFit c need c') (h' : LeastFit c' need' c'') (hle : need ≤ need') :
    LeastFit c need' c'' := by
  obtain ⟨k, hk⟩ := h.doublings
  obtain ⟨k', hk'⟩ := h'.doublings
  refine ⟨⟨k + k', by rw [hk', hk, pow_add, Nat.mul_assoc]⟩, h'.fits, fun j hj => ?_⟩
  have hkj : k ≤ j := by
    have hpow : c * 2 ^ k ≤ c * 2 ^ j := hk ▸ h.least j (hle.trans hj)
    exact (Nat.pow_le_pow_iff_right Nat.one_lt_two).1 (Nat.le_of_mul_le_mul_left hpow hpos)
  have hsplit : c * 2 ^ j = c' * 2 ^ (j - k) := by
    rw [hk, Nat.mul_assoc, ← pow_add, Nat.add_sub_cancel' hkj]
  rw [hsplit] at hj ⊢
  exact h'.least _ hj

/-- Growth for a run that `MAXLEN` allows stays within PHYS, which is such a capacity itself (R44). -/
theorem LeastFit.le_two_pow {m : Nat} (h : LeastFit c need c') (hc : ∃ k, c = 2 ^ k) (hle : c ≤ 2 ^ m)
    (hneed : need ≤ 2 ^ m * 32) : c' ≤ 2 ^ m := by
  obtain ⟨k, rfl⟩ := hc
  have hkm : k ≤ m := (Nat.pow_le_pow_iff_right Nat.one_lt_two).1 hle
  have hphys : 2 ^ k * 2 ^ (m - k) = 2 ^ m := by rw [← pow_add, Nat.add_sub_cancel' hkm]
  rw [← hphys] at hneed ⊢
  exact h.least _ hneed

theorem LeastFit.two_pow (h : LeastFit c need c') (hc : ∃ k, c = 2 ^ k) : ∃ k, c' = 2 ^ k := by
  obtain ⟨k, rfl⟩ := hc
  obtain ⟨k', hk'⟩ := h.doublings
  exact ⟨k + k', by rw [hk', pow_add]⟩

end LeastFit

/-- Settles O46: `Grow` goes to the first capacity that fits, counted in doublings. -/
theorem growReachesLeastFit : Obligations.GrowReachesLeastFit := by
  intro s need hpos
  have hleast := grow_leastFit hpos need
  refine ⟨hleast.fits, ?_, hleast.two_pow⟩
  obtain ⟨k, hk⟩ := hleast.doublings
  refine ⟨k, hk, fun j hj => ?_⟩
  have hpow : s.cap * 2 ^ k ≤ s.cap * 2 ^ j := hk ▸ hleast.least j hj
  exact (Nat.pow_le_pow_iff_right Nat.one_lt_two).1 (Nat.le_of_mul_le_mul_left hpow hpos)

/-! ### PHYS -/

/-- PHYS holds the words of a constructed buffer and those of `MAXLEN` bits (R8). -/
theorem max_le_phys (cfg : Config) : max 64 ((cfg.maxLen + 31) / 32) ≤ cfg.phys :=
  Nat.le_pow_clog Nat.one_lt_two _

theorem maxLen_le_phys (cfg : Config) : cfg.maxLen ≤ cfg.phys * 32 := by
  have hwords : (cfg.maxLen + 31) / 32 ≤ cfg.phys := (le_max_right _ _).trans (max_le_phys cfg)
  omega

/-- Whatever `cap` grows to for a run that `MAXLEN` allows meets CAP (R23, R44). -/
theorem invCap_of_leastFit {cfg : Config} {s t : State} {need : Nat} (hcap : InvCap cfg s)
    (hneed : need ≤ cfg.maxLen) (h : LeastFit s.cap need t.cap) : InvCap cfg t := by
  obtain ⟨hpow, h64, hphys⟩ := hcap
  exact ⟨h.two_pow hpow, h64.trans h.le, h.le_two_pow hpow hphys (hneed.trans (maxLen_le_phys cfg))⟩

/-- Settles O48: PHYS is a capacity the doubling can reach that holds `MAXLEN` bits. -/
theorem growStaysWithinPhys : Obligations.GrowStaysWithinPhys := by
  intro cfg s need _ hcap hneed
  have h64 : 64 ≤ s.cap := hcap.2.1
  exact ⟨invCap_of_leastFit hcap hneed (grow_leastFit (by omega) need), maxLen_le_phys cfg⟩

/-! ### The invariants of the constructed buffer, and what they are told by -/

/-- The invariants speak of the buffer alone (R31). -/
theorem inv_of_toBuffer {cfg : Config} {s t : State} (h : t.toBuffer = s.toBuffer) (hinv : Inv cfg s) : Inv cfg t := by
  obtain ⟨hlen, htail, hcap, hmem⟩ := hinv
  obtain ⟨b, _, _⟩ := s
  obtain rfl : t.toBuffer = b := h
  exact ⟨hlen, htail, hcap, hmem⟩

theorem inv_of_constructed {cfg : Config} {s : State} (h : s.toBuffer = Buffer.constructed) : Inv cfg s := by
  have hstorage : s.storage = [] := congrArg Buffer.storage h
  have hcap : s.cap = 64 := congrArg Buffer.cap h
  have hlen : s.len = 0 := congrArg (fun b => b.bitLength.toNat) h
  refine ⟨⟨?_, ?_⟩, fun i _ _ => ?tail, ⟨⟨6, hcap⟩, hcap.ge, ?_⟩, ?_, ?_⟩
  case tail =>
    unfold bitAt
    rw [word_eq_zero_of_constructed h]
    exact BitVec.getLsbD_zero
  · omega
  · omega
  · rw [hcap]
    exact (le_max_left _ _).trans (max_le_phys cfg)
  · rw [hstorage]
    rfl
  · rw [hstorage]
    exact fun _ hc => nomatch hc

/-- Settles O41: the reset state's buffer is the constructed one. -/
theorem resetMeetsInvariant : Obligations.ResetMeetsInvariant := fun _ _ =>
  inv_of_constructed State.reset_toBuffer

end Sys2Proof.Proofs

/-! ## The byte view (R34) and the payload of GETBYTES (R63, R64) -/

namespace Sys2Proof.Proofs

open Sys2Proof.Machine

/-! ### Bytes of words -/

/-- Shifting a word of the storage down and masking a byte gives the byte the model keeps. -/
theorem shr_word_and_255 (s : State) (k : Nat) :
    shr (s.word (k / 4)) (24 - 8 * (k % 4)) &&& 0xFF = (s.storage.readByte k).setWidth 32 := by
  have hmask : (0xFF : Word) = lowmask 8 := by decide
  apply BitVec.eq_of_getLsbD_eq
  intro p hp
  rw [hmask, BitVec.getLsbD_and, getLsbD_shr, getLsbD_lowmask, BitVec.getLsbD_setWidth]
  by_cases h8 : p < 8
  · unfold State.word
    rw [Memory.getLsbD_readWord _ _ (by omega), show 4 * (k / 4) + (3 - (24 - 8 * (k % 4) + p) / 8) = k by omega,
      show (24 - 8 * (k % 4) + p) % 8 = p by omega]
    simp [hp, h8]
  · simp [h8, BitVec.getLsbD_of_ge (s.storage.readByte k) p (by omega)]

/-- Settles O7: both readings of the byte view are the byte the model keeps. -/
theorem byteViewIsBigEndian : Obligations.ByteViewIsBigEndian := by
  intro s k
  have hbyte := (s.storage.readByte k).isLt
  have hshift : (shr (s.word (k / 4)) (24 - 8 * (k % 4)) &&& 0xFF).toNat = (s.storage.readByte k).toNat := by
    rw [shr_word_and_255, BitVec.toNat_setWidth, Nat.mod_eq_of_lt (by omega)]
  exact ⟨(byteAt_eq_readByte s k).trans hshift.symm, byteAt_eq_readByte s k⟩

/-! ### Packing -/

theorem packBytes_length (bs : List Byte) : (packBytes bs).length = (bs.length + 3) / 4 := by
  induction bs using packBytes.induct with
  | case1 => simp [packBytes]
  | case2 => simp [packBytes]
  | case3 => simp [packBytes]
  | case4 => simp [packBytes]
  | case5 b0 b1 b2 b3 rest ih =>
    simp only [packBytes, List.length_cons, ih]
    omega

/-- Packing the `n` bytes from word `w` on gives those words back, if the bytes beyond the `n` are 0 (R64). -/
theorem packBytes_readByte (m : Memory) (w n : Nat) (hzero : ∀ a, 4 * w + n ≤ a → m.readByte a = 0) :
    packBytes ((List.range' (4 * w) n).map m.readByte) = (List.range' w ((n + 3) / 4)).map m.readWord := by
  induction n using Nat.strong_induction_on generalizing w with
  | _ n ih =>
    match n with
    | 0 => rfl
    | 1 =>
      have h1 := hzero (4 * w + 1) (by omega)
      have h2 := hzero (4 * w + 2) (by omega)
      have h3 := hzero (4 * w + 3) (by omega)
      simp [List.range', packBytes, Memory.readWord, h1, h2, h3]
    | 2 =>
      have h2 := hzero (4 * w + 2) (by omega)
      have h3 := hzero (4 * w + 3) (by omega)
      simp [List.range', packBytes, Memory.readWord, h2, h3]
    | 3 =>
      have h3 := hzero (4 * w + 3) (by omega)
      simp [List.range', packBytes, Memory.readWord, h3]
    | n + 4 =>
      have hrest := ih n (by omega) (w + 1) fun a ha => hzero a (by omega)
      have hcount : (n + 4 + 3) / 4 = (n + 3) / 4 + 1 := by omega
      have hnext : 4 * w + 1 + 1 + 1 + 1 = 4 * (w + 1) := by ring
      simp only [hcount, List.range'_succ, List.map_cons, packBytes, hnext, hrest]
      rfl

/-! ### The words of the stream -/

/-- A bit of a word that does not exist reads as 0 (log entry 5). -/
theorem bitAt_beyond_cap {s : State} (h : InvMemory s) {i : Nat} (hi : s.cap * 32 ≤ i) : bitAt s i = false := by
  obtain ⟨-, hcells⟩ := h
  rw [bitAt_eq_byte, Memory.readByte_of_forall_lt hcells (by omega)]
  exact BitVec.getLsbD_zero

/-- Under the invariants no bit from `bitLength` on is one, not even beyond `cap` (R21). -/
theorem bitAt_eq_false_of_len_le {cfg : Config} {s : State} (h : Inv cfg s) {i : Nat} (hi : s.len ≤ i) :
    bitAt s i = false := by
  by_cases hcap : i < s.cap * 32
  · exact h.tail i hi hcap
  · exact bitAt_beyond_cap h.mem (Nat.not_lt.1 hcap)

theorem readByte_eq_zero_of_len_le {cfg : Config} {s : State} (h : Inv cfg s) {a : Nat} (ha : s.len ≤ 8 * a) :
    s.storage.readByte a = 0 := by
  apply BitVec.eq_of_getLsbD_eq
  intro p hp
  have hbit := bitAt_eq_false_of_len_le h (i := 8 * a + (7 - p)) (by omega)
  rw [bitAt_eq_byte, show (8 * a + (7 - p)) / 8 = a by omega, show 7 - (8 * a + (7 - p)) % 8 = p by omega] at hbit
  exact hbit.trans BitVec.getLsbD_zero.symm

/-- Settles O6: the bytes read are those of the words in order, and ZERO-TAIL fills the last word. -/
theorem getbytesPayloadIsStorageWords : Obligations.GetbytesPayloadIsStorageWords := by
  intro s hinv h8
  obtain ⟨hlen, -⟩ := hinv.len
  have hread := readStreamBytes_ok (s := s) (n := s.len / 8) (k := 0) (by omega)
  have hpack := packBytes_readByte s.storage 0 (s.len / 8) fun a ha => readByte_eq_zero_of_len_le hinv (by omega)
  have hanswer := exec_getbytes_of_read h8 hread
  rw [Nat.mul_zero] at hpack
  rw [hpack, ← List.range_eq_range'] at hanswer
  exact hanswer

/-! ### How many payload words -/

theorem readStreamBytes_length {n k : Nat} {s : State} {bytes : List Byte} (h : readStreamBytes n k s = .ok bytes) :
    bytes.length = n := by
  induction n generalizing k bytes with
  | zero =>
    cases h
    rfl
  | succ n ih =>
    unfold readStreamBytes at h
    cases hb : readStreamByte k s with
    | error f => rw [hb] at h; cases h
    | ok b =>
      cases hbs : readStreamBytes n (k + 1) s with
      | error f => rw [hb, hbs] at h; cases h
      | ok bs =>
        rw [hb, hbs] at h
        cases h
        exact congrArg (· + 1) (ih hbs)

/-- The response packet after the words sent before is the status word and the payload. -/
theorem payload_eq_of_respond {op op' : BitVec 8} {p payload : List Word} {u : State} {ws : List Word}
    (hkept : u.rsp = ws) (h : (respond op p u).rsp = ws ++ statusWord op' okCode :: payload) : payload = p := by
  rw [respond_rsp, hkept] at h
  exact (List.cons.inj (List.append_cancel_left h)).2.symm

/-- An error's status word is no OK. -/
theorem raiseError_rsp_ne_ok {op : BitVec 8} {e : Err} {u : State} {payload : List Word} :
    (raiseError op e u).rsp ≠ u.rsp ++ statusWord op okCode :: payload := by
  intro h
  rw [raiseError_rsp] at h
  exact statusWord_code_ne_ok op e (List.cons.inj (List.append_cancel_left h)).1

end Sys2Proof.Proofs

/-! ## Frames: what an append leaves alone from any state (R38, R39), and what no command does to `cap` -/

namespace Sys2Proof.Proofs

open Sys2Proof.Machine

/-! ### The datapath writes inside its words -/

/-- From `s` to `t` at most the words `lo .. hi - 1` were written. -/
structure Touched (lo hi : Nat) (s t : State) : Prop where
  cap : t.cap = s.cap
  bitLength : t.bitLength = s.bitLength
  cmd : t.cmd = s.cmd
  rsp : t.rsp = s.rsp
  byte : ∀ a, a / 4 < lo ∨ hi ≤ a / 4 → t.storage.readByte a = s.storage.readByte a

/-- Where this computation from `s` ends, it wrote at most the words `lo .. hi - 1`. -/
def Touches (lo hi : Nat) (s : State) (x : Except Fault State) : Prop := ∀ t, x = .ok t → Touched lo hi s t

section Touches

variable {lo hi : Nat}

theorem Touched.trans {s t u : State} (h : Touched lo hi s t) (h' : Touched lo hi t u) : Touched lo hi s u :=
  ⟨h'.cap.trans h.cap, h'.bitLength.trans h.bitLength, h'.cmd.trans h.cmd, h'.rsp.trans h.rsp,
    fun a ha => (h'.byte a ha).trans (h.byte a ha)⟩

theorem touches_pure (s : State) : Touches lo hi s (.ok s) := by
  rintro _ ⟨⟩
  exact ⟨rfl, rfl, rfl, rfl, fun _ _ => rfl⟩

theorem Touches.bind {s : State} {x : Except Fault State} {f : State → Except Fault State} (hx : Touches lo hi s x)
    (hf : ∀ u, Touches lo hi u (f u)) : Touches lo hi s (x >>= f) := by
  cases x with
  | error e => exact fun _ h => nomatch h
  | ok u => exact fun t ht => (hx u rfl).trans (hf u t ht)

theorem Touches.bind_word {s : State} {x : Except Fault Word} {f : Word → Except Fault State}
    (hf : ∀ v, Touches lo hi s (f v)) : Touches lo hi s (x >>= f) := by
  cases x with
  | error e => exact fun _ h => nomatch h
  | ok v => exact hf v

theorem memWrite_touches {w : Nat} (hlo : lo ≤ w) (hhi : w < hi) (v : Word) (s : State) :
    Touches lo hi s (memWrite w v s) := by
  intro t h
  obtain ⟨-, rfl⟩ := memWrite_ok_iff.1 h
  exact ⟨rfl, rfl, rfl, rfl, fun a ha => Memory.readByte_writeWord_of_ne s.storage v (by omega)⟩

/-- `merge` writes the words of its run (R87). -/
theorem merge_touches {value : Word} {len L : Nat} (h1 : 1 ≤ len) (hlo : lo ≤ wordOf L)
    (hhi : wordsFor (L + len) ≤ hi) (s : State) : Touches lo hi s (merge value len L s) := by
  unfold wordsFor at hhi
  unfold merge
  split_ifs with hfit
  · exact .bind_word fun _ => memWrite_touches hlo (by unfold wordOf; omega) _ s
  · unfold remain used at hfit
    exact .bind_word fun _ => .bind (memWrite_touches hlo (by unfold wordOf; omega) _ s) fun u =>
      memWrite_touches (Nat.le_succ_of_le hlo) (by unfold wordOf; omega) _ u

theorem copyWords_touches {vs : List Word} {w : Nat} (hlo : lo ≤ w) (hhi : w + vs.length ≤ hi) (s : State) :
    Touches lo hi s (copyWords vs w s) := by
  induction vs generalizing w s with
  | nil => exact touches_pure s
  | cons v vs ih =>
    rw [List.length_cons] at hhi
    exact .bind (memWrite_touches hlo (by omega) v s) fun u => ih (by omega) (by omega) u

theorem shiftWords_touches {sh : Nat} {vs : List Word} {w : Nat} (hlo : lo ≤ w) (hhi : w + vs.length < hi)
    (s : State) : Touches lo hi s (shiftWords sh vs w s) := by
  induction vs generalizing w s with
  | nil => exact touches_pure s
  | cons v vs ih =>
    rw [List.length_cons] at hhi
    exact .bind_word fun _ => .bind (memWrite_touches hlo (by omega) _ s) fun u =>
      .bind (memWrite_touches (by omega) (by omega) _ u) fun u' => ih (by omega) (by omega) u'

end Touches

/-- The fast path writes the words of its run (R98). -/
theorem fastcopy_touches (values : List Word) (len : Nat) {L : Nat} (haligned : used L = 0) (s : State) :
    Touches (wordOf L) (wordsFor (L + len)) s (fastcopy values len L s) := by
  have hcount : (values.take (wordsFor len)).length ≤ wordsFor len := List.length_take_le _ _
  refine copyWords_touches le_rfl ?_ s
  unfold used at haligned
  unfold wordsFor at hcount ⊢
  unfold wordOf
  omega

/-- The shift-and-merge path writes the words of its run (R99). -/
theorem shiftmerge_touches (values : List Word) (len : Nat) {L : Nat} (hshift : used L ≠ 0) (s : State) :
    Touches (wordOf L) (wordsFor (L + len)) s (shiftmerge values len L s) := by
  have hcount : (values.take (len / 32)).length ≤ len / 32 := List.length_take_le _ _
  have hend : L + 32 * (len / 32) + len % 32 = L + len := by omega
  have hwords : wordOf L + (values.take (len / 32)).length < wordsFor (L + len) := by
    unfold used at hshift
    unfold wordsFor wordOf
    omega
  refine .bind (shiftWords_touches le_rfl hwords s) fun u => ?_
  split_ifs with hrem
  · exact touches_pure u
  · exact merge_touches (Nat.one_le_iff_ne_zero.2 hrem) (by unfold wordOf; omega) (by rw [hend]) u

/-! ### Growth from any capacity -/

/-- The loop of R42 only doubles. -/
theorem grow_eq_iterate_double (need : Nat) (s : State) : ∃ k, grow need s = double^[k] s := by
  have loop : ∀ fuel (u : State), ∃ k, growLoop fuel need u = double^[k] u := by
    intro fuel
    induction fuel with
    | zero => exact fun u => ⟨0, rfl⟩
    | succ fuel ih =>
      intro u
      unfold growLoop
      split_ifs
      · obtain ⟨k, hk⟩ := ih (double u)
        exact ⟨k + 1, hk⟩
      · exact ⟨0, rfl⟩
  exact loop need s

theorem iterate_double_cap (k : Nat) (s : State) : (double^[k] s).cap = s.cap * 2 ^ k := by
  induction k generalizing s with
  | zero => exact (Nat.mul_one s.cap).symm
  | succ k ih => rw [Function.iterate_succ_apply, ih, double_cap, pow_succ, Nat.mul_assoc, Nat.mul_comm 2]

theorem iterate_double_cmd (k : Nat) (s : State) : (double^[k] s).cmd = s.cmd := by
  induction k generalizing s with
  | zero => rfl
  | succ k ih => rw [Function.iterate_succ_apply, ih, double_cmd]

theorem grow_doublings (need : Nat) (s : State) : ∃ k, (grow need s).cap = s.cap * 2 ^ k := by
  obtain ⟨k, hk⟩ := grow_eq_iterate_double need s
  exact ⟨k, by rw [hk, iterate_double_cap]⟩

theorem grow_cmd (need : Nat) (s : State) : (grow need s).cmd = s.cmd := by
  obtain ⟨k, hk⟩ := grow_eq_iterate_double need s
  rw [hk, iterate_double_cmd]

/-- A byte that existed is as before: where there is one, `cap` is not 0. -/
theorem grow_readByte {need a : Nat} {s : State} (ha : a < 4 * s.cap) :
    (grow need s).storage.readByte a = s.storage.readByte a :=
  (grow_growsTo (by omega)).byte_old a ha

/-! ### The frame of an append -/

/-- What an append of `n` bits leaves alone, whether it succeeded or not: the command stream, the responses sent before,
every byte outside the words of its run; and how `bitLength` and `cap` can move. -/
def KeepsOutside (s t : State) (n : Nat) : Prop :=
  t.cmd = s.cmd ∧ (∃ r, t.rsp = s.rsp ++ [r]) ∧
    (t.bitLength = s.bitLength ∨ t.len = s.len + n) ∧ (∃ k, t.cap = s.cap * 2 ^ k) ∧
    (∀ a, a < 4 * s.cap → (a < 4 * wordOf s.len ∨ 4 * wordsFor (s.len + n) ≤ a) →
      t.storage.readByte a = s.storage.readByte a) ∧
    (n = 0 → t.storage = s.storage ∧ t.cap = s.cap)

/-- An answer of one word keeps everything. -/
theorem keepsOutside_emit (s : State) (r : Word) (n : Nat) : KeepsOutside s (s.emit [r]) n :=
  ⟨rfl, ⟨r, rfl⟩, .inl rfl, ⟨0, (Nat.mul_one s.cap).symm⟩, fun _ _ _ => rfl, fun _ => ⟨rfl, rfl⟩⟩

/-- Growing, writing the words of the run, setting the length and answering keep everything else. -/
theorem keepsOutside_of_touched {s u : State} {n : Nat} (op : BitVec 8) (h0 : n ≠ 0) (h32 : s.len + n < 2 ^ 32)
    (h : Touched (wordOf s.len) (wordsFor (s.len + n)) (grow (s.len + n) s) u) :
    KeepsOutside s (respond op [] (u.setLength (s.len + n))) n := by
  refine ⟨h.cmd.trans (grow_cmd _ s), ⟨statusWord op okCode, ?rsp⟩, .inr (State.setLength_len u h32), ?cap,
    fun a hold houtside => ?byte, fun hn => absurd hn h0⟩
  case rsp => rw [respond_rsp, State.setLength_rsp, h.rsp, grow_rsp]
  case cap =>
    obtain ⟨k, hk⟩ := grow_doublings (s.len + n) s
    exact ⟨k, h.cap.trans hk⟩
  case byte => exact (h.byte a (by omega)).trans (grow_readByte hold)

theorem appendUnder_keepsOutside {cfg : Config} (hcfg : cfg.legal) {len : BitVec 24} {value : Word} {s t : State}
    (h : appendUnder cfg len value s = .next t) : KeepsOutside s t len.toNat := by
  rcases appendUnder_next_cases h with ⟨e, -, rfl⟩ | ⟨-, -, rfl⟩ | ⟨hcheck, h0, u, hu, rfl⟩
  · exact keepsOutside_emit s _ _
  · exact keepsOutside_emit s _ _
  · obtain ⟨-, -, hmax⟩ := checkAppend_none_iff.1 hcheck
    obtain ⟨-, hlegal⟩ := hcfg
    have htouched := merge_touches (Nat.one_le_iff_ne_zero.2 h0) le_rfl le_rfl _ u hu
    exact keepsOutside_of_touched opAppend h0 (by omega) htouched

theorem appendwUnder_keepsOutside {cfg : Config} (hcfg : cfg.legal) {len : Word} {values : List Word} {s t : State}
    (h : appendwUnder cfg len values s = .next t) : KeepsOutside s t len.toNat := by
  rcases appendwUnder_next_cases h with ⟨e, -, rfl⟩ | ⟨-, -, rfl⟩ | ⟨hcheck, h0, u, hu, rfl⟩
  · exact keepsOutside_emit s _ _
  · exact keepsOutside_emit s _ _
  · obtain ⟨-, -, hmax⟩ := checkAppendw_none_iff.1 hcheck
    obtain ⟨-, hlegal⟩ := hcfg
    refine keepsOutside_of_touched opAppendw h0 (by omega) ?_
    split_ifs at hu with haligned
    · exact fastcopy_touches values len.toNat haligned _ u hu
    · exact shiftmerge_touches values len.toNat haligned _ u hu

/-- Settles O12: `merge` writes inside the words of its run. -/
theorem appendFrame : Obligations.AppendFrame := fun _ _ _ _ h => appendUnder_keepsOutside legal_std h

/-- Settles O18: both paths of the bulk append write inside the words of its run. -/
theorem appendwFrame : Obligations.AppendwFrame := fun _ _ _ _ h => appendwUnder_keepsOutside legal_std h

/-! ### `cap` and the payload, command by command -/

theorem execGetbit_cap {index : Word} {s t : State} (h : execGetbit index s = .next t) : t.cap = s.cap := by
  rcases execGetbit_next_cases h with ⟨-, rfl⟩ | ⟨-, -, rfl⟩ <;> rfl

theorem execGetbytes_cap {s t : State} (h : execGetbytes s = .next t) : t.cap = s.cap := by
  rcases execGetbytes_next_cases h with ⟨-, rfl⟩ | ⟨-, bytes, -, rfl⟩ <;> rfl

theorem execLength_cap {s t : State} (h : execLength s = .next t) : t.cap = s.cap := by
  cases h
  rfl

/-- A kept capacity is doubled no times. -/
theorem doublings_of_eq {c c' : Nat} (h : c' = c) : ∃ k, c' = c * 2 ^ k := ⟨0, by rw [h, pow_zero, Nat.mul_one]⟩

/-- Settles O38, command by command: the reads keep `cap`, the appends grow. -/
theorem capChangesOnlyByDoubling : Obligations.CapChangesOnlyByDoubling := by
  intro i s t hi h
  cases i with
  | init => exact absurd rfl hi
  | getbit index => exact ⟨doublings_of_eq (execGetbit_cap h), fun _ => execGetbit_cap h⟩
  | getbytes => exact ⟨doublings_of_eq (execGetbytes_cap h), fun _ => execGetbytes_cap h⟩
  | append len value =>
    obtain ⟨-, -, -, hcap, -, -⟩ := appendFrame s t len value h
    exact ⟨hcap, by simp⟩
  | appendw len values =>
    obtain ⟨-, -, -, hcap, -, -⟩ := appendwFrame s t len values h
    exact ⟨hcap, by simp⟩
  | length => exact ⟨doublings_of_eq (execLength_cap h), fun _ => execLength_cap h⟩

/-- An append that answers has sent its status word alone. -/
theorem payload_length_of_keepsOutside {s t : State} {n : Nat} (h : KeepsOutside s t n) {r : Word}
    {payload : List Word} (hrsp : t.rsp = s.rsp ++ r :: payload) : payload.length = 0 := by
  obtain ⟨-, ⟨r', hrsp'⟩, -⟩ := h
  obtain ⟨-, rfl⟩ := List.cons.inj (List.append_cancel_left (hrsp.symm.trans hrsp'))
  rfl

/-- Settles O34, command by command: a status OK rules the errors out, and what was sent after it is counted. -/
theorem payloadWordCounts : Obligations.PayloadWordCounts := by
  intro i s t payload h hrsp
  cases i with
  | init =>
    cases h
    rw [payload_eq_of_respond (construct_rsp s) hrsp]
    rfl
  | getbit index =>
    rcases execGetbit_next_cases h with ⟨-, rfl⟩ | ⟨-, -, rfl⟩
    · exact absurd hrsp raiseError_rsp_ne_ok
    · rw [payload_eq_of_respond rfl hrsp]
      rfl
  | getbytes =>
    rcases execGetbytes_next_cases h with ⟨-, rfl⟩ | ⟨-, bytes, hread, rfl⟩
    · exact absurd hrsp raiseError_rsp_ne_ok
    · rw [payload_eq_of_respond rfl hrsp, List.length_cons, packBytes_length, readStreamBytes_length hread,
        Nat.add_comm]
  | append len value => exact payload_length_of_keepsOutside (appendFrame s t len value h) hrsp
  | appendw len values => exact payload_length_of_keepsOutside (appendwFrame s t len values h) hrsp
  | length =>
    cases h
    rw [payload_eq_of_respond rfl hrsp]
    rfl

/-! ### The source words an APPENDW does not use -/

/-- Two sources agree on the words that `len` bits take. -/
def SameUsed (len : Nat) (values values' : List Word) : Prop :=
  values.take (wordsFor len) = values'.take (wordsFor len)

section SameUsed

variable {len : Nat} {values values' : List Word}

theorem SameUsed.take_eq (h : SameUsed len values values') {n : Nat} (hn : n ≤ wordsFor len) :
    values.take n = values'.take n := by
  have hcut := congrArg (List.take n) h
  rwa [List.take_take, List.take_take, Nat.min_eq_left hn] at hcut

/-- The partial final word, where there is one, is used. -/
theorem SameUsed.sourceWord_eq (h : SameUsed len values values') (hrem : len % 32 ≠ 0) :
    sourceWord values (len / 32) = sourceWord values' (len / 32) := by
  have hlt : len / 32 < wordsFor len := by unfold wordsFor; omega
  unfold sourceWord
  rw [← getD_take hlt, h, getD_take hlt]

theorem SameUsed.checkAppendw_eq (h : SameUsed len values values') (hlen : len ≤ 32 * values.length)
    (hlen' : len ≤ 32 * values'.length) (cfg : Config) (L : Nat) :
    checkAppendw cfg len values L = checkAppendw cfg len values' L := by
  have hdirty : dirtyTail len values = dirtyTail len values' := by
    unfold dirtyTail
    by_cases hrem : len % 32 = 0
    · simp [hrem]
    · rw [h.sourceWord_eq hrem]
  unfold checkAppendw
  rw [if_neg (Nat.not_lt.2 hlen), if_neg (Nat.not_lt.2 hlen'), hdirty]

theorem SameUsed.fastcopy_eq (h : SameUsed len values values') (L : Nat) (s : State) :
    fastcopy values len L s = fastcopy values' len L s := by
  unfold fastcopy
  rw [h.take_eq le_rfl]

theorem SameUsed.shiftmerge_eq (h : SameUsed len values values') (L : Nat) (s : State) :
    shiftmerge values len L s = shiftmerge values' len L s := by
  unfold shiftmerge
  rw [h.take_eq (show len / 32 ≤ wordsFor len by unfold wordsFor; omega)]
  by_cases hrem : len % 32 = 0
  · simp only [if_pos hrem]
  · simp only [if_neg hrem, h.sourceWord_eq hrem]

end SameUsed

/-- Settles O19: the tests and both paths use the words that `len` bits take, and no others. -/
theorem appendwIgnoresUnusedSourceWords : Obligations.AppendwIgnoresUnusedSourceWords := by
  intro s len values values' hlen hlen' hsame
  have h : SameUsed len.toNat values values' := hsame
  change appendwUnder Config.std len values s = appendwUnder Config.std len values' s
  unfold appendwUnder
  rw [h.checkAppendw_eq hlen hlen', h.fastcopy_eq, h.shiftmerge_eq]

end Sys2Proof.Proofs

/-! ## What a successful append leaves, bit by bit, and the invariants under every step (R20, R21, R23) -/

namespace Sys2Proof.Proofs

open Sys2Proof.Machine

/-! ### The reference append is the only extension (R41) -/

/-- Settles O50: what extends the stream by these bits wrote them as one run, and so did the reference append. -/
theorem refAppendIsTheOnlyExtension : Obligations.RefAppendIsTheOnlyExtension := by
  intro s t bits hmem htail hfits h32
  have ⟨hwf, hcells⟩ := hmem
  have hready : ReadyFor s bits.length := ⟨hwf, hcells, htail, hfits⟩
  constructor
  · rintro rfl
    obtain ⟨u, hw, href⟩ := refAppend_eq bits hwf htail hfits h32
    rw [href]
    refine ⟨hw.cap, State.setLength_len u h32, fun j hj => hw.rest j (.inl hj), hw.run, fun j hj hcap => ?tail,
      ⟨hw.wf, fun c hc => ?cells⟩, hw.cmd, hw.rsp⟩
    case tail => exact hw.zeroFrom htail j hj (by rwa [hw.cap])
    case cells =>
      rw [State.setLength_cap, hw.cap]
      exact hw.mem hcells c hc
  · rintro ⟨hcap, hlen, hold, hrun, hzero, hmem', hcmd, hrsp⟩
    have hw : Wrote s (t.setLength s.len) s.len bits.length fun k => bits.getD k false :=
      { cap := hcap
        bitLength := by rw [State.setLength_bitLength, State.len, BitVec.ofNat_toNat, BitVec.setWidth_eq]
        cmd := hcmd
        rsp := hrsp
        wf := hmem'.1
        mem := fun _ c hc => hcap ▸ hmem'.2 c hc
        run := hrun
        rest := fun i hi => by
          rw [bitAt_setLength]
          rcases hi with hi | hi
          · exact hold i hi
          by_cases hin : i < s.cap * 32
          · exact (hzero i hi hin).trans (htail i (by omega) hin).symm
          · exact (bitAt_beyond_cap hmem' (by omega)).trans (bitAt_beyond_cap hmem (by omega)).symm }
    have hset : (t.setLength s.len).setLength (s.len + bits.length) = t := by
      rw [← hlen]
      exact State.setLength_self t
    rw [← hready.setLength_eq_refAppend rfl h32 hw, hset]

/-! ### A successful append -/

/-- From `s` to `t` these bits were appended: `cap` is the first that holds them, they stand at the old `bitLength`, and
every other bit is as before, whether its word exists or not. -/
structure Appended (s t : State) (bits : List Bool) : Prop where
  cap : LeastFit s.cap (s.len + bits.length) t.cap
  len : t.len = s.len + bits.length
  run : ∀ k, k < bits.length → bitAt t (s.len + k) = bits.getD k false
  rest : ∀ i, i < s.len ∨ s.len + bits.length ≤ i → bitAt t i = bitAt s i
  mem : InvMemory t

theorem cap_pos_of_inv {cfg : Config} {s : State} (h : Inv cfg s) : 1 ≤ s.cap := by
  obtain ⟨-, h64, -⟩ := h.cap
  omega

/-- Growing shows in no bit (R43). -/
theorem grow_bitAt {cfg : Config} {s : State} (h : Inv cfg s) (need i : Nat) : bitAt (grow need s) i = bitAt s i := by
  unfold bitAt
  rw [grow_word h]

/-- The per-bit append of the grown state appends its bits (R41, R43). -/
theorem appended_refAppend {cfg : Config} (hcfg : cfg.legal) {s : State} (h : Inv cfg s) {bits : List Bool}
    (hmax : s.len + bits.length ≤ cfg.maxLen) :
    Appended s (refAppend (grow (s.len + bits.length) s) bits) bits := by
  obtain ⟨-, hlegal⟩ := hcfg
  have h32 : s.len + bits.length < 2 ^ 32 := by omega
  have hready := grow_readyFor h bits.length
  obtain ⟨u, hw, href⟩ := refAppend_eq bits hready.wf hready.tail hready.fits (by rwa [grow_len])
  rw [grow_len] at hw href
  rw [href]
  refine ⟨?cap, State.setLength_len u h32, hw.run, fun i hi => (hw.rest i hi).trans (grow_bitAt h _ i),
    ⟨hw.wf, fun c hc => ?cells⟩⟩
  case cap =>
    rw [State.setLength_cap, hw.cap]
    exact grow_leastFit (cap_pos_of_inv h) _
  case cells =>
    rw [State.setLength_cap, hw.cap]
    exact hw.mem hready.cells c hc

/-- The answer shows in no item of the buffer. -/
theorem Appended.respond {s t : State} {bits : List Bool} (h : Appended s t bits) (op : BitVec 8) (p : List Word) :
    Appended s (respond op p t) bits :=
  ⟨h.cap, h.len, h.run, h.rest, h.mem⟩

/-- Appending one run and then another is appending both (R41, R42). -/
theorem Appended.trans {s t u : State} {bits bits' : List Bool} (hpos : 1 ≤ s.cap) (h : Appended s t bits)
    (h' : Appended t u bits') : Appended s u (bits ++ bits') := by
  obtain ⟨hcap, hlen, hrun, hrest, -⟩ := h
  obtain ⟨hcap', hlen', hrun', hrest', hmem'⟩ := h'
  rw [hlen, Nat.add_assoc, ← List.length_append] at hlen' hcap'
  rw [hlen] at hrun' hrest'
  refine ⟨hcap.trans hpos hcap' ?_, hlen', fun k hk => ?run, fun i hi => ?rest, hmem'⟩
  · rw [List.length_append]
    omega
  case run =>
    rw [List.length_append] at hk
    by_cases hfirst : k < bits.length
    · rw [hrest' _ (.inl (by omega)), hrun k hfirst, List.getD_append _ _ _ _ hfirst]
    · have hle := Nat.not_lt.1 hfirst
      have hsecond := hrun' (k - bits.length) (by omega)
      rw [Nat.add_assoc, Nat.add_sub_cancel' hle] at hsecond
      rw [hsecond, List.getD_append_right _ _ _ _ hle]
  case rest =>
    rw [List.length_append] at hi
    rw [hrest' i (by omega), hrest i (by omega)]

/-- Nothing appended. -/
theorem appended_nil {cfg : Config} {s : State} (h : Inv cfg s) : Appended s s [] := by
  obtain ⟨hfits, -⟩ := h.len
  have hleast := grow_leastFit (cap_pos_of_inv h) s.len
  rw [grow_of_fits hfits] at hleast
  exact ⟨hleast, rfl, fun _ hk => absurd hk (Nat.not_lt_zero _), fun _ _ => rfl, h.mem⟩

/-- The appended bits tell the buffer. -/
theorem Appended.toBuffer_unique {s t u : State} {bits : List Bool} (h : Appended s t bits) (h' : Appended s u bits) :
    t.storage = u.storage ∧ t.cap = u.cap ∧ t.bitLength = u.bitLength := by
  have hcap : t.cap = u.cap := h.cap.unique h'.cap
  have hbits : ∀ i, bitAt t i = bitAt u i := fun i => by
    by_cases hi : i < s.len ∨ s.len + bits.length ≤ i
    · rw [h.rest i hi, h'.rest i hi]
    · have hrun := (h.run (i - s.len) (by omega)).trans (h'.run (i - s.len) (by omega)).symm
      rwa [Nat.add_sub_cancel' (by omega)] at hrun
  obtain ⟨hwf, hcells⟩ := h.mem
  obtain ⟨hwf', hcells'⟩ := h'.mem
  exact ⟨storage_ext hwf hwf' hcells (hcap ▸ hcells') fun i _ => hbits i, hcap,
    BitVec.eq_of_toNat_eq (h.len.trans h'.len.symm)⟩

/-- An append that `MAXLEN` allows keeps the invariants. -/
theorem Appended.inv {cfg : Config} {s t : State} {bits : List Bool} (h : Appended s t bits) (hinv : Inv cfg s)
    (hmax : s.len + bits.length ≤ cfg.maxLen) : Inv cfg t where
  len := ⟨h.len ▸ h.cap.fits, h.len ▸ hmax⟩
  tail i hi _ := by
    rw [h.len] at hi
    rw [h.rest i (.inr hi)]
    exact bitAt_eq_false_of_len_le hinv (by omega)
  cap := invCap_of_leastFit hinv.cap hmax h.cap
  mem := h.mem

/-! ### What either append answers -/

/-- What an append with opcode `op` answers where the invariants hold: the error of the first test that fails, or the
per-bit append of its bits. -/
def appendOutcome (op : BitVec 8) (failed : Option Err) (bits : List Bool) (s : State) : State :=
  match failed with
  | some e => raiseError op e s
  | none => respond op [] (refAppend (grow (s.len + bits.length) s) bits)

section Outcome

variable {cfg : Config} {s : State}

theorem appendUnder_eq_outcome (hcfg : cfg.legal) (h : Inv cfg s) (len : BitVec 24) (value : Word) :
    appendUnder cfg len value s =
      .next (appendOutcome opAppend (checkAppend cfg len.toNat value s.len) (runBits len.toNat value) s) := by
  cases hcheck : checkAppend cfg len.toNat value s.len with
  | some e => exact appendUnder_of_error hcheck
  | none => rw [appendUnder_eq_refAppend hcfg h hcheck, appendOutcome, runBits_length]

theorem appendwUnder_eq_outcome (hcfg : cfg.legal) (h : Inv cfg s) (len : Word) (values : List Word) :
    appendwUnder cfg len values s =
      .next (appendOutcome opAppendw (checkAppendw cfg len.toNat values s.len) (sourceBits len.toNat values) s) := by
  cases hcheck : checkAppendw cfg len.toNat values s.len with
  | some e => exact appendwUnder_of_error hcheck
  | none => rw [appendwUnder_eq_refAppend hcfg h hcheck, appendOutcome, sourceBits_length]

/-- `MAXLEN` allows a run whose tests pass (R83, R94). -/
theorem runBits_fits {len : Nat} {value : Word} (hcheck : checkAppend cfg len value s.len = none) :
    s.len + (runBits len value).length ≤ cfg.maxLen := by
  obtain ⟨-, -, hmax⟩ := checkAppend_none_iff.1 hcheck
  rwa [runBits_length]

theorem sourceBits_fits {len : Nat} {values : List Word} (hcheck : checkAppendw cfg len values s.len = none) :
    s.len + (sourceBits len values).length ≤ cfg.maxLen := by
  obtain ⟨-, -, hmax⟩ := checkAppendw_none_iff.1 hcheck
  rwa [sourceBits_length]

/-- Past its tests an append appends its bits and answers OK. -/
theorem appendOutcome_appended (hcfg : cfg.legal) (h : Inv cfg s) (op : BitVec 8) {bits : List Bool}
    (hmax : s.len + bits.length ≤ cfg.maxLen) :
    Appended s (appendOutcome op none bits s) bits ∧
      (appendOutcome op none bits s).rsp = s.rsp ++ [statusWord op okCode] := by
  refine ⟨(appended_refAppend hcfg h hmax).respond op [], ?_⟩
  rw [appendOutcome, respond_rsp, refAppend_rsp, grow_rsp]

/-- APPEND past its tests (R82, R84). -/
theorem appendUnder_appended (hcfg : cfg.legal) (h : Inv cfg s) {len : BitVec 24} {value : Word}
    (hcheck : checkAppend cfg len.toNat value s.len = none) :
    ∃ t, appendUnder cfg len value s = .next t ∧ Appended s t (runBits len.toNat value) := by
  have houtcome := appendUnder_eq_outcome hcfg h len value
  rw [hcheck] at houtcome
  exact ⟨_, houtcome, (appendOutcome_appended hcfg h opAppend (runBits_fits hcheck)).1⟩

/-- APPENDW past its tests (R93, R95). -/
theorem appendwUnder_appended (hcfg : cfg.legal) (h : Inv cfg s) {len : Word} {values : List Word}
    (hcheck : checkAppendw cfg len.toNat values s.len = none) :
    ∃ t, appendwUnder cfg len values s = .next t ∧ Appended s t (sourceBits len.toNat values) := by
  have houtcome := appendwUnder_eq_outcome hcfg h len values
  rw [hcheck] at houtcome
  exact ⟨_, houtcome, (appendOutcome_appended hcfg h opAppendw (sourceBits_fits hcheck)).1⟩

end Outcome

/-! ### Every command answers, and keeps the invariants -/

/-- This outcome is a next state that meets the invariants. -/
def AnswersInv (cfg : Config) (x : Host.Outcome State Fault Refusal) : Prop := ∃ t, x = .next t ∧ Inv cfg t

theorem inv_emit {cfg : Config} {s : State} (h : Inv cfg s) (ws : List Word) : Inv cfg (s.emit ws) :=
  inv_of_toBuffer (State.emit_toBuffer s ws) h

theorem inv_setCmd {cfg : Config} {s : State} (h : Inv cfg s) (ws : List Word) : Inv cfg (s.setCmd ws) :=
  inv_of_toBuffer (State.setCmd_toBuffer s ws) h

theorem execGetbit_answersInv {cfg : Config} {s : State} (h : Inv cfg s) (index : Word) :
    AnswersInv cfg (execGetbit index s) := by
  obtain ⟨hlen, -⟩ := h.len
  rcases Nat.lt_or_ge index.toNat s.len with hlt | hge
  · exact ⟨_, exec_getbit_of_lt hlt (wordOf_lt (hlt.trans_le hlen)), inv_emit h _⟩
  · exact ⟨_, exec_getbit_of_ge hge, inv_emit h _⟩

theorem execGetbytes_answersInv {cfg : Config} {s : State} (h : Inv cfg s) : AnswersInv cfg (execGetbytes s) := by
  obtain ⟨hlen, -⟩ := h.len
  by_cases h8 : s.len % 8 = 0
  · exact ⟨_, exec_getbytes_of_read h8 (readStreamBytes_eq_byteAt hlen), inv_emit h _⟩
  · exact ⟨_, exec_getbytes_of_unaligned h8, inv_emit h _⟩

theorem appendOutcome_inv {cfg : Config} (hcfg : cfg.legal) {s : State} (h : Inv cfg s) (op : BitVec 8)
    {failed : Option Err} {bits : List Bool} (hmax : failed = none → s.len + bits.length ≤ cfg.maxLen) :
    Inv cfg (appendOutcome op failed bits s) := by
  cases failed with
  | some e => exact inv_emit h _
  | none => exact (appendOutcome_appended hcfg h op (hmax rfl)).1.inv h (hmax rfl)

theorem execUnder_answersInv {cfg : Config} (hcfg : cfg.legal) {s : State} (h : Inv cfg s) (i : Instr) :
    AnswersInv cfg (execUnder cfg i s) := by
  cases i with
  | init => exact ⟨_, rfl, inv_of_constructed rfl⟩
  | getbit index => exact execGetbit_answersInv h index
  | getbytes => exact execGetbytes_answersInv h
  | append len value =>
    exact ⟨_, appendUnder_eq_outcome hcfg h len value, appendOutcome_inv hcfg h opAppend runBits_fits⟩
  | appendw len values =>
    exact ⟨_, appendwUnder_eq_outcome hcfg h len values, appendOutcome_inv hcfg h opAppendw sourceBits_fits⟩
  | length => exact ⟨_, rfl, inv_emit h _⟩

/-- Settles O40: a wait and an illegal packet leave the buffer, and every command answers. -/
theorem everyInstanceStepsSafely : Obligations.EveryInstanceStepsSafely := by
  intro cfg s hcfg h
  unfold stepUnder
  cases hd : decode s.cmd with
  | incomplete => exact ⟨s, stepWith_of_incomplete hd, h⟩
  | illegal op why rest => exact ⟨_, stepWith_of_illegal hd, inv_emit (inv_setCmd h rest) _⟩
  | command i rest =>
    rw [stepWith_of_command hd]
    exact execUnder_answersInv hcfg (inv_setCmd h rest) i

/-- Settles O39: the next state of the default `MAXLEN` is the one every step has (R7). -/
theorem stepKeepsInvariant : Obligations.StepKeepsInvariant := by
  intro s t h hstep
  obtain ⟨t', hstep', h'⟩ := everyInstanceStepsSafely Config.std s legal_std h
  rw [← step_eq_stepUnder_std, hstep] at hstep'
  cases hstep'
  exact h'

end Sys2Proof.Proofs

/-! ## Runs: `cap` is hidden from the host (R24), and a run of the machine is a run of the block (R127) -/

namespace Sys2Proof.Proofs

open Sys2Proof.Machine

/-! ### States the host cannot tell apart -/

/-- The same length, the same written bits and the same responses sent: what the host can have seen. -/
structure SameView (s t : State) : Prop where
  bitLength : s.bitLength = t.bitLength
  bits : ∀ j, j < s.len → bitAt s j = bitAt t j
  rsp : s.rsp = t.rsp

theorem SameView.len {s t : State} (h : SameView s t) : s.len = t.len := congrArg BitVec.toNat h.bitLength

theorem SameView.emit {s t : State} (h : SameView s t) (ws : List Word) : SameView (s.emit ws) (t.emit ws) :=
  ⟨h.bitLength, h.bits, congrArg (· ++ ws) h.rsp⟩

theorem SameView.setCmd {s t : State} (h : SameView s t) (ws ws' : List Word) :
    SameView (s.setCmd ws) (t.setCmd ws') :=
  ⟨h.bitLength, h.bits, h.rsp⟩

/-- The whole bytes of the written stream are the same. -/
theorem SameView.byteAt {s t : State} (h : SameView s t) {k : Nat} (hk : k < s.len / 8) : byteAt s k = byteAt t k := by
  have hbit : ∀ j ∈ List.range 8, (bitAt s (8 * k + j)).toNat * 2 ^ (7 - j) =
      (bitAt t (8 * k + j)).toNat * 2 ^ (7 - j) := by
    intro j hj
    rw [List.mem_range] at hj
    rw [h.bits _ (by omega)]
  unfold Machine.byteAt
  rw [List.map_congr_left hbit]

/-- After the same bits were appended to either, and the same words sent, the two still look the same. -/
theorem SameView.appended {s t s' t' : State} {bits : List Bool} {ws : List Word} (h : SameView s t)
    (hs : Appended s s' bits) (ht : Appended t t' bits) (hs' : s'.rsp = s.rsp ++ ws) (ht' : t'.rsp = t.rsp ++ ws) :
    SameView s' t' := by
  refine ⟨BitVec.eq_of_toNat_eq ?length, fun j hj => ?bits, by rw [hs', ht', h.rsp]⟩
  case length => exact (hs.len.trans (congrArg (· + bits.length) h.len)).trans ht.len.symm
  case bits =>
    have hj' : j < s.len + bits.length := hs.len ▸ hj
    rcases Nat.lt_or_ge j s.len with hold | hnew
    · rw [hs.rest j (.inl hold), ht.rest j (.inl (h.len ▸ hold)), h.bits j hold]
    · have hrun := hs.run (j - s.len) (by omega)
      have hrun' := ht.run (j - s.len) (by omega)
      rw [← h.len] at hrun'
      rw [Nat.add_sub_cancel' hnew] at hrun hrun'
      rw [hrun, hrun']

/-- The tests look at `bitLength` alone, so an append fails in both states or in neither. -/
theorem SameView.appendOutcome {cfg : Config} (hcfg : cfg.legal) {s t : State} (hs : Inv cfg s) (ht : Inv cfg t)
    (h : SameView s t) (op : BitVec 8) {failed : Option Err} {bits : List Bool}
    (hmax : failed = none → s.len + bits.length ≤ cfg.maxLen) :
    SameView (appendOutcome op failed bits s) (appendOutcome op failed bits t) := by
  cases failed with
  | some e => exact h.emit _
  | none =>
    obtain ⟨happended, hrsp⟩ := appendOutcome_appended hcfg hs op (hmax rfl)
    obtain ⟨happended', hrsp'⟩ := appendOutcome_appended hcfg ht op (h.len ▸ hmax rfl)
    exact h.appended happended happended' hrsp hrsp'

/-- These two outcomes are next states that look the same. -/
def AnswersAlike (x y : Host.Outcome State Fault Refusal) : Prop :=
  ∃ s t, x = .next s ∧ y = .next t ∧ SameView s t

section Alike

variable {cfg : Config} {s t : State}

theorem getbit_alike (hs : Inv cfg s) (ht : Inv cfg t) (h : SameView s t) (index : Word) :
    AnswersAlike (execGetbit index s) (execGetbit index t) := by
  obtain ⟨hlen, -⟩ := hs.len
  obtain ⟨hlen', -⟩ := ht.len
  rcases Nat.lt_or_ge index.toNat s.len with hlt | hge
  · have hlt' : index.toNat < t.len := h.len ▸ hlt
    refine ⟨_, _, exec_getbit_of_lt hlt (wordOf_lt (hlt.trans_le hlen)),
      exec_getbit_of_lt hlt' (wordOf_lt (hlt'.trans_le hlen')), ?_⟩
    rw [h.bits _ hlt]
    exact h.emit _
  · exact ⟨_, _, exec_getbit_of_ge hge, exec_getbit_of_ge (h.len ▸ hge), h.emit _⟩

theorem getbytes_alike (hs : Inv cfg s) (ht : Inv cfg t) (h : SameView s t) :
    AnswersAlike (execGetbytes s) (execGetbytes t) := by
  obtain ⟨hlen, -⟩ := hs.len
  obtain ⟨hlen', -⟩ := ht.len
  by_cases h8 : s.len % 8 = 0
  · have hbytes : (List.range (t.len / 8)).map (fun k => BitVec.ofNat 8 (byteAt t k)) =
        (List.range (s.len / 8)).map fun k => BitVec.ofNat 8 (byteAt s k) := by
      rw [← h.len]
      refine List.map_congr_left fun k hk => ?_
      rw [h.byteAt (List.mem_range.1 hk)]
    have hread := readStreamBytes_eq_byteAt hlen'
    rw [hbytes] at hread
    refine ⟨_, _, exec_getbytes_of_read h8 (readStreamBytes_eq_byteAt hlen),
      exec_getbytes_of_read (h.len ▸ h8) hread, ?_⟩
    rw [h.len]
    exact h.emit _
  · exact ⟨_, _, exec_getbytes_of_unaligned h8, exec_getbytes_of_unaligned (h.len ▸ h8), h.emit _⟩

theorem append_alike (hcfg : cfg.legal) (hs : Inv cfg s) (ht : Inv cfg t) (h : SameView s t) (len : BitVec 24)
    (value : Word) : AnswersAlike (appendUnder cfg len value s) (appendUnder cfg len value t) := by
  have houtcome := appendUnder_eq_outcome hcfg ht len value
  rw [← h.len] at houtcome
  exact ⟨_, _, appendUnder_eq_outcome hcfg hs len value, houtcome, h.appendOutcome hcfg hs ht opAppend runBits_fits⟩

theorem appendw_alike (hcfg : cfg.legal) (hs : Inv cfg s) (ht : Inv cfg t) (h : SameView s t) (len : Word)
    (values : List Word) : AnswersAlike (appendwUnder cfg len values s) (appendwUnder cfg len values t) := by
  have houtcome := appendwUnder_eq_outcome hcfg ht len values
  rw [← h.len] at houtcome
  exact ⟨_, _, appendwUnder_eq_outcome hcfg hs len values, houtcome,
    h.appendOutcome hcfg hs ht opAppendw sourceBits_fits⟩

theorem init_alike (h : SameView s t) : AnswersAlike (execInit s) (execInit t) := by
  have hconstructed : SameView (construct s) (construct t) := ⟨rfl, fun _ hj => absurd hj (Nat.not_lt_zero _), h.rsp⟩
  exact ⟨_, _, rfl, rfl, hconstructed.emit _⟩

theorem length_alike (h : SameView s t) : AnswersAlike (execLength s) (execLength t) := by
  refine ⟨_, _, rfl, rfl, ?_⟩
  rw [h.bitLength]
  exact h.emit _

/-- A command answers states that look the same with states that look the same. -/
theorem execUnder_alike (hcfg : cfg.legal) (hs : Inv cfg s) (ht : Inv cfg t) (h : SameView s t) (i : Instr) :
    AnswersAlike (execUnder cfg i s) (execUnder cfg i t) := by
  cases i with
  | init => exact init_alike h
  | getbit index => exact getbit_alike hs ht h index
  | getbytes => exact getbytes_alike hs ht h
  | append len value => exact append_alike hcfg hs ht h len value
  | appendw len values => exact appendw_alike hcfg hs ht h len values
  | length => exact length_alike h

end Alike

/-- Two states in step with each other: they look the same, wait on the same words and meet the invariants. -/
structure InStep (s t : State) : Prop where
  view : SameView s t
  cmd : s.cmd = t.cmd
  inv_left : Inv Config.std s
  inv_right : Inv Config.std t

/-- A step keeps two states in step. -/
theorem step_inStep {s t : State} (h : InStep s t) : ∃ s' t', step s = .next s' ∧ step t = .next t' ∧ InStep s' t' := by
  obtain ⟨hview, hcmd, hs, ht⟩ := h
  cases hd : decode s.cmd with
  | incomplete =>
    exact ⟨s, t, stepWith_of_incomplete hd, stepWith_of_incomplete (hcmd ▸ hd), hview, hcmd, hs, ht⟩
  | illegal op why rest =>
    exact ⟨_, _, stepWith_of_illegal hd, stepWith_of_illegal (hcmd ▸ hd),
      (hview.setCmd rest rest).emit _, rfl, inv_emit (inv_setCmd hs rest) _,
      inv_emit (inv_setCmd ht rest) _⟩
  | command i rest =>
    have hs' := inv_setCmd hs rest
    have ht' := inv_setCmd ht rest
    obtain ⟨u, v, hu, hv, huv⟩ := execUnder_alike legal_std hs' ht' (hview.setCmd rest rest) i
    have hstep : step s = .next u := by
      rw [step_eq_stepUnder_std]
      exact (stepWith_of_command hd).trans hu
    have hstep' : step t = .next v := by
      rw [step_eq_stepUnder_std]
      exact (stepWith_of_command (hcmd ▸ hd)).trans hv
    obtain ⟨hcmdu, -⟩ := execUnder_setCmd hu []
    obtain ⟨hcmdv, -⟩ := execUnder_setCmd hv []
    exact ⟨u, v, hstep, hstep', huv, hcmdu.trans hcmdv.symm, stepKeepsInvariant s u hs hstep,
      stepKeepsInvariant t v ht hstep'⟩

theorem run_inStep (n : Nat) {s t : State} (h : InStep s t) :
    ∃ s' t', Sys2Proof.core.run n s = .next s' ∧ Sys2Proof.core.run n t = .next t' ∧ InStep s' t' := by
  induction n generalizing s t with
  | zero => exact ⟨s, t, rfl, rfl, h⟩
  | succ n ih =>
    obtain ⟨u, v, hu, hv, huv⟩ := step_inStep h
    obtain ⟨s', t', hs', ht', h'⟩ := ih huv
    exact ⟨s', t', (run_succ_of_step hu n).trans hs', (run_succ_of_step hv n).trans ht', h'⟩

/-- Settles O43: the two states stay in step. -/
theorem capIsHidden : Obligations.CapIsHidden := by
  intro n s t hs ht hlen hbits hcmd hrsp
  obtain ⟨s', t', hs', ht', h⟩ := run_inStep n ⟨⟨hlen, hbits, hrsp⟩, hcmd, hs, ht⟩
  exact ⟨s', t', hs', ht', h.view.rsp, h.cmd, h.view.bitLength⟩

/-! ### A run of packets -/

/-- These words are one complete packet, read as `p` and nothing left over. -/
theorem packetOf_eq_some {ws : List Word} {p : Packet} (h : packetOf ws = some p) :
    (∃ i, p = .command i ∧ decode ws = .command i []) ∨
      ∃ op why, p = .illegal op ∧ decode ws = .illegal op why [] := by
  unfold packetOf at h
  split at h
  · rename_i i hd
    exact .inl ⟨i, (Option.some.inj h).symm, hd⟩
  · rename_i op why hd
    exact .inr ⟨op, why, (Option.some.inj h).symm, hd⟩
  · cases h
  · cases h
  · cases h

/-- A step on a packet with words waiting after it is the block's step on the packet (R13, R31). -/
theorem stepUnder_eq_blockStep {ws : List Word} {p : Packet} (h : packetOf ws = some p) (cfg : Config) (s : State)
    (tail : List Word) :
    stepUnder cfg (s.setCmd (ws ++ tail)) = atPorts (s.setCmd tail) (blockStep cfg p s.toBuffer) := by
  obtain ⟨-, hcommand, hillegal⟩ := blockStepNeedsNoPorts cfg (s.setCmd (ws ++ tail))
  rcases packetOf_eq_some h with ⟨i, rfl, hd⟩ | ⟨op, why, rfl, hd⟩
  · have hread := decode_append_right (by rw [hd]; exact Decoded.noConfusion) tail
    rw [hd] at hread
    exact hcommand i tail hread
  · have hread := decode_append_right (by rw [hd]; exact Decoded.noConfusion) tail
    rw [hd] at hread
    exact hillegal op why tail hread

/-- A step of the machine that answers is one of the block, which answered its buffer and what was sent. -/
theorem blockStep_of_atPorts {s t : State} {x : Host.Outcome (Buffer × List Word) Fault Refusal}
    (h : atPorts s x = .next t) : ∃ r, x = .next (t.toBuffer, r) ∧ t = { t with cmd := s.cmd, rsp := s.rsp ++ r } := by
  cases x with
  | next a =>
    cases h
    exact ⟨a.2, rfl, rfl⟩
  | fault f => cases h
  | refused e => cases h

theorem blockRun_cons {cfg : Config} {p : Packet} {ps : List Packet} {b c d : Buffer} {r : List Word}
    {rs : List (List Word)} (h : blockStep cfg p b = .next (c, r)) (hrun : blockRun cfg ps c = .next (d, rs)) :
    blockRun cfg (p :: ps) b = .next (d, r :: rs) := by
  simp only [blockRun, h, hrun]

/-- Settles O53, by induction on the packets: each step answers, and leaves the packets after it waiting. -/
theorem packetRunIsBlockRun : Obligations.PacketRunIsBlockRun := by
  intro ps
  induction ps with
  | nil =>
    intro wss s _ hwss
    obtain rfl : wss = [] := List.map_eq_nil_iff.1 hwss
    refine ⟨s.toBuffer, [], rfl, rfl, ?_⟩
    change Host.Outcome.next _ = Host.Outcome.next _
    refine congrArg Host.Outcome.next (State.eq_of_fields rfl rfl rfl rfl ?_)
    exact (List.append_nil s.rsp).symm
  | cons p ps ih =>
    intro wss s hinv hwss
    obtain ⟨ws, wss, rfl, hp, hps⟩ := List.map_eq_cons_iff.1 hwss
    have hstep := stepUnder_eq_blockStep hp Config.std s (wss.flatten ++ s.cmd)
    obtain ⟨t, ht, hinv'⟩ :=
      everyInstanceStepsSafely Config.std _ legal_std (inv_setCmd hinv (ws ++ (wss.flatten ++ s.cmd)))
    obtain ⟨r, hblock, htports⟩ := blockStep_of_atPorts (hstep.symm.trans ht)
    obtain ⟨b, rs, hrun, hcount, hcore⟩ := ih wss (t.setCmd s.cmd) (inv_setCmd hinv' s.cmd) hps
    refine ⟨b, r :: rs, blockRun_cons hblock hrun, congrArg (· + 1) hcount, ?_⟩
    have hfirst : step (s.setCmd ((ws :: wss).flatten ++ s.cmd)) =
        .next ((t.setCmd s.cmd).setCmd (wss.flatten ++ s.cmd)) := by
      rw [List.flatten_cons, List.append_assoc, step_eq_stepUnder_std, ht, htports]
      rfl
    have hsent : (t.setCmd s.cmd).rsp = s.rsp ++ r := by rw [htports]; rfl
    refine (run_succ_of_step hfirst _).trans (hcore.trans ?_)
    rw [hsent, List.flatten_cons, List.append_assoc]
    rfl

end Sys2Proof.Proofs

/-! ## What the appends show: words, reads and the written stream (R33, R87, R90, R98, R99, R102) -/

namespace Sys2Proof.Proofs

open Sys2Proof.Machine

/-! ### Readable bits and the written stream -/

/-- An error leaves the buffer, and a success appends beyond the readable bits. -/
theorem bitAt_appendOutcome {cfg : Config} (hcfg : cfg.legal) {s : State} (h : Inv cfg s) (op : BitVec 8)
    {failed : Option Err} {bits : List Bool} (hmax : failed = none → s.len + bits.length ≤ cfg.maxLen) {j : Nat}
    (hj : j < s.len) : bitAt (appendOutcome op failed bits s) j = bitAt s j := by
  cases failed with
  | some e => rfl
  | none => exact (appendOutcome_appended hcfg h op (hmax rfl)).1.rest j (.inl hj)

/-- Settles O49: what either append answers has the readable bits. -/
theorem appendsKeepReadableBits : Obligations.AppendsKeepReadableBits := by
  intro i s t hinv hi h j hj
  rcases hi with ⟨len, value, rfl⟩ | ⟨len, values, rfl⟩
  · cases (appendUnder_eq_outcome legal_std hinv len value).symm.trans h
    exact bitAt_appendOutcome legal_std hinv opAppend runBits_fits hj
  · cases (appendwUnder_eq_outcome legal_std hinv len values).symm.trans h
    exact bitAt_appendOutcome legal_std hinv opAppendw sourceBits_fits hj

/-- The written stream after an append is the old one, then the bits (R33, R41). -/
theorem Appended.written {s t : State} {bits : List Bool} (h : Appended s t bits) :
    written t = written s ++ bits := by
  have hold : (List.range s.len).map (bitAt t) = (List.range s.len).map (bitAt s) :=
    List.map_congr_left fun j hj => h.rest j (.inl (List.mem_range.1 hj))
  have hnew : (List.range bits.length).map (bitAt t ∘ (s.len + ·)) = bits := by
    refine List.ext_getElem (by simp) fun k hk hk' => ?_
    rw [List.getElem_map, List.getElem_range, Function.comp_apply, h.run k hk', List.getD_eq_getElem _ _ hk']
  unfold Machine.written
  rw [h.len, List.range_add, List.map_append, List.map_map, hold, hnew]

/-- Settles O21: a success of either appends its bits. -/
theorem appendsExtendWrittenStream : Obligations.AppendsExtendWrittenStream := by
  intro s hinv
  refine ⟨fun len value hcheck => ?append, fun len values hcheck => ?appendw⟩
  case append =>
    obtain ⟨t, ht, happended⟩ := appendUnder_appended legal_std hinv hcheck
    exact ⟨t, ht, happended.written⟩
  case appendw =>
    obtain ⟨t, ht, happended⟩ := appendwUnder_appended legal_std hinv hcheck
    exact ⟨t, ht, happended.written⟩

/-! ### APPEND: reading back, and growth -/

/-- GETBIT of a written bit, with the index as a number. -/
theorem exec_getbit_ofNat {cfg : Config} {s : State} (h : Inv cfg s) {j : Nat} (hj : j < s.len) :
    exec (.getbit (BitVec.ofNat 32 j)) s = .next (s.emit [0x02000000, if bitAt s j then 1 else 0]) := by
  obtain ⟨hlen, -⟩ := h.len
  have hlt := State.len_lt s
  have hindex : (BitVec.ofNat 32 j).toNat = j := by rw [BitVec.toNat_ofNat, Nat.mod_eq_of_lt (by omega)]
  have hbit := exec_getbit_of_lt (index := BitVec.ofNat 32 j) (s := s) (by rwa [hindex])
    (wordOf_lt (by rw [hindex]; omega))
  rwa [hindex] at hbit

/-- Settles O14: the bits GETBIT reads from the next state are the appended run and the old bits. -/
theorem appendReadsBack : Obligations.AppendReadsBack := by
  intro s len value hinv h31 hv hmax
  have hn := runBits_length len.toNat value
  obtain ⟨t, ht, happended⟩ := appendUnder_appended legal_std hinv (checkAppend_of_fits h31 hv hmax)
  have hinv' := happended.inv hinv (by rwa [hn])
  have hlen := happended.len
  rw [hn] at hlen
  refine ⟨t, ht, fun k hk => ?run, fun j hj => ⟨if bitAt s j then 1 else 0, exec_getbit_ofNat hinv hj, ?old⟩⟩
  case run =>
    rw [exec_getbit_ofNat hinv' (by omega), happended.run k (hn.symm ▸ hk), runBits_getD value hk]
  case old =>
    rw [← happended.rest j (.inl hj)]
    exact exec_getbit_ofNat hinv' (by omega)

/-- Settles O13: one doubling is enough for 31 bits, and an empty run changes nothing. -/
theorem appendGrowsAtMostOnce : Obligations.AppendGrowsAtMostOnce := by
  intro s len value hinv h31 hv hmax
  obtain ⟨hlen, -⟩ := hinv.len
  obtain ⟨-, h64, -⟩ := hinv.cap
  obtain ⟨t, ht, happended⟩ := appendUnder_appended legal_std hinv (checkAppend_of_fits h31 hv hmax)
  have hleast := happended.cap
  rw [runBits_length] at hleast
  have hroom := hleast.fits
  refine ⟨t, ht, ?cap, hroom, fun h1 => ?current, fun hcross => ?next, fun h0 => ?empty⟩
  case cap =>
    split_ifs with hshort
    · exact hleast.eq_double hshort (by omega)
    · exact hleast.eq_of_fits (Nat.not_lt.1 hshort)
  case current =>
    unfold wordOf
    omega
  case next =>
    unfold remain used at hcross
    unfold wordOf
    omega
  case empty =>
    rw [h0] at happended
    obtain ⟨hstorage, hcap, -⟩ := happended.toBuffer_unique (appended_nil hinv)
    exact ⟨hstorage, hcap⟩

/-! ### APPEND word by word (R87) -/

/-- A run that fits the current word is ORed into it. -/
theorem merge_of_fits {value : Word} {len L : Nat} {s : State} (hfit : len ≤ remain L) (hw : wordOf L < s.cap) :
    merge value len L s =
      .ok (s.setStorage (s.storage.writeWord (wordOf L) (s.word (wordOf L) ||| shl32 value (remain L - len)))) := by
  rw [merge, if_pos hfit, memRead_of_lt hw]
  exact memWrite_of_lt hw

/-- The two writes of a run that crosses a word boundary. -/
def crossed (value : Word) (len L : Nat) (s : State) : Memory :=
  (s.storage.writeWord (wordOf L) (s.word (wordOf L) ||| shr value (len - remain L))).writeWord (wordOf L + 1)
    (shl32 value (32 - (len - remain L)))

theorem merge_of_crosses {value : Word} {len L : Nat} {s : State} (hcross : remain L < len)
    (hw : wordOf L + 1 < s.cap) : merge value len L s = .ok (s.setStorage (crossed value len L s)) := by
  have hcurrent : wordOf L < s.cap := by omega
  rw [merge, if_neg (Nat.not_le.2 hcross), memRead_of_lt hcurrent]
  change (memWrite _ _ s >>= _) = _
  rw [memWrite_of_lt hcurrent]
  exact memWrite_of_lt (by rwa [State.setStorage_cap])

/-- Past its tests, with something to append, APPEND ends as `merge` does. -/
theorem appendUnder_of_merge {cfg : Config} {len : BitVec 24} {value : Word} {s u : State}
    (hcheck : checkAppend cfg len.toNat value s.len = none) (h1 : 1 ≤ len.toNat)
    (hu : merge value len.toNat s.len (grow (s.len + len.toNat) s) = .ok u) :
    appendUnder cfg len value s = .next (respond opAppend [] (u.setLength (s.len + len.toNat))) := by
  have h0 : len.toNat ≠ 0 := Nat.one_le_iff_ne_zero.1 h1
  rw [appendUnder, hcheck]
  simp only [if_neg h0, hu, completing_ok]

/-- Settles O11: the words the two forms of `merge` write into the grown state. -/
theorem appendMergesWords : Obligations.AppendMergesWords := by
  intro s len value hinv h1 h31 hv hmax
  obtain ⟨-, hlegal⟩ := legal_std
  have hcheck := checkAppend_of_fits h31 hv hmax
  have hready := grow_readyFor hinv len.toNat
  have hroom := hready.fits
  rw [grow_len] at hroom
  rcases Nat.lt_or_ge (remain s.len) len.toNat with hcross | hfit
  · have hw : wordOf s.len + 1 < (grow (s.len + len.toNat) s).cap := by
      unfold remain used at hcross
      unfold wordOf
      omega
    have hu := merge_of_crosses (value := value) hcross hw
    have hword := fun v => Memory.readWord_writeWord (Memory.writeWord_wf hready.wf (wordOf s.len) v) (wordOf s.len + 1)
    refine ⟨_, appendUnder_of_merge hcheck h1 hu, State.setLength_len _ (by omega), fun h => by omega, fun _ =>
      ⟨?current, ?next, fun j hj hj' => ?crossOthers⟩⟩
    case current =>
      rw [respond_word, State.setLength_word, State.setStorage_word, crossed, hword,
        if_neg (Nat.ne_of_lt (Nat.lt_succ_self _)), Memory.readWord_writeWord_self hready.wf, grow_word hinv]
    case next => rw [respond_word, State.setLength_word, State.setStorage_word, crossed, hword, if_pos rfl]
    case crossOthers =>
      rw [respond_word, State.setLength_word, State.setStorage_word, crossed,
        Memory.readWord_writeWord_of_ne _ _ hj', Memory.readWord_writeWord_of_ne _ _ hj]
      exact grow_word hinv _ j
  · have hw : wordOf s.len < (grow (s.len + len.toNat) s).cap := by
      unfold wordOf
      omega
    have hu := merge_of_fits (value := value) hfit hw
    refine ⟨_, appendUnder_of_merge hcheck h1 hu, State.setLength_len _ (by omega), fun _ =>
      ⟨?only, fun j hj => ?others⟩, fun h => by omega⟩
    case only =>
      rw [respond_word, State.setLength_word, State.setStorage_word, Memory.readWord_writeWord_self hready.wf,
        grow_word hinv]
    case others =>
      rw [respond_word, State.setLength_word, State.setStorage_word, Memory.readWord_writeWord_of_ne _ _ hj]
      exact grow_word hinv _ j

/-! ### APPENDW: the tests, and the words it splits (R94, R99) -/

theorem checkAppendw_of_long {cfg : Config} {len L : Nat} {values : List Word} (h : 32 * values.length < len) :
    checkAppendw cfg len values L = some .invalidArgument := if_pos h

theorem checkAppendw_of_dirty {cfg : Config} {len L : Nat} {values : List Word} (hlen : len ≤ 32 * values.length)
    (h : dirtyTail len values = true) : checkAppendw cfg len values L = some .invalidArgument :=
  (if_neg (Nat.not_lt.2 hlen)).trans (if_pos h)

/-- The unused bits of the last source word in use are 0, where there are any (R94). -/
theorem dirtyTail_eq_false {len : Nat} {values : List Word}
    (h : len % 32 = 0 ∨ (sourceWord values (len / 32)).toNat % 2 ^ (32 - len % 32) = 0) :
    dirtyTail len values = false := by
  refine eq_false_of_ne_true fun hdirty => ?_
  obtain ⟨hrem, hne⟩ := (dirtyTail_iff len values).1 hdirty
  exact h.elim hrem hne

/-- The header of an APPENDW packet, its count in the low-order bits (R53, R59). -/
theorem header_appendw {n : Nat} (h : n ≤ COUNTMAX) :
    header opAppendw (BitVec.ofNat 24 n) = (0x05000000 ||| BitVec.ofNat 32 n) := by
  have hcount : (BitVec.ofNat 24 n).setWidth 32 = BitVec.ofNat 32 n := by
    unfold COUNTMAX at h
    apply BitVec.eq_of_toNat_eq
    rw [BitVec.toNat_setWidth, BitVec.toNat_ofNat, BitVec.toNat_ofNat, Nat.mod_eq_of_lt (b := 2 ^ 24) (by omega)]
  rw [header_eq_or, hcount]
  rfl

/-- Settles O15: the three tests in order (R94), and past them the per-bit append (R93). -/
theorem appendwEqualsPerBitReference : Obligations.AppendwEqualsPerBitReference := by
  intro s len values
  have hinvalid : statusWord opAppendw Err.invalidArgument.code = 0x05000002 := by decide
  have hexhausted : statusWord opAppendw Err.capacityExhausted.code = 0x05000004 := by decide
  have hok : statusWord opAppendw okCode = 0x05000000 := by decide
  rw [← hinvalid, ← hexhausted, ← hok]
  refine ⟨fun hcount => ?packet, fun hlong => ?tooLong, fun hlen hrem hne => ?dirty,
    fun hlen hclean => ⟨fun hfull => ?full, fun hmax hinv => ?appended⟩⟩
  case packet => rw [hok]; exact congrArg (· :: len :: values) (header_appendw hcount)
  case tooLong => exact appendwUnder_of_error (checkAppendw_of_long hlong)
  case dirty => exact appendwUnder_of_error (checkAppendw_of_dirty hlen ((dirtyTail_iff _ _).2 ⟨hrem, hne⟩))
  case full => exact appendwUnder_of_error (checkAppendw_of_full hlen (dirtyTail_eq_false hclean) hfull)
  case appended =>
    exact appendwUnder_eq_refAppend legal_std hinv
      (checkAppendw_none_iff.2 ⟨hlen, dirtyTail_eq_false hclean, hmax⟩)

/-- Bit `b` from the left of a word shifted right by `u`. -/
theorem getLsbD_shr_left (v : Word) {u b : Nat} (hb : b < 32) :
    (shr v u).getLsbD (31 - b) = (decide (u ≤ b) && v.getLsbD (31 - (b - u))) := by
  rw [getLsbD_shr]
  by_cases hu : u ≤ b
  · rw [show u + (31 - b) = 31 - (b - u) by omega]
    simp [hu]
  · rw [BitVec.getLsbD_of_ge v _ (by omega)]
    simp [hu]

/-- Bit `b` from the left of a word shifted left until its last `u` bits lead. -/
theorem getLsbD_shl32_left (v : Word) {u b : Nat} (hu : u ≤ 32) (hb : b < 32) :
    (shl32 v (32 - u)).getLsbD (31 - b) = (decide (b < u) && v.getLsbD (u - 1 - b)) := by
  rw [getLsbD_shl32]
  by_cases hlt : b < u
  · rw [show 31 - b - (32 - u) = u - 1 - b by omega]
    simp [hlt, show ¬ 31 - b < 32 - u by omega, show 31 - b < 32 by omega]
  · simp [hlt, show 31 - b < 32 - u by omega]

/-- A word whose first `u` bits are those of `x`, which has no others, and whose other bits are the first of `v`. -/
theorem word_eq_or_shr {t : State} {w u : Nat} {x v : Word}
    (hhead : ∀ b, b < u → b < 32 → bitAt t (32 * w + b) = x.getLsbD (31 - b))
    (hx : ∀ b, u ≤ b → b < 32 → x.getLsbD (31 - b) = false)
    (hrest : ∀ b, u ≤ b → b < 32 → bitAt t (32 * w + b) = v.getLsbD (31 - (b - u))) : t.word w = x ||| shr v u := by
  refine word_eq_of_bitAt fun b hb => ?_
  rw [BitVec.getLsbD_or, getLsbD_shr_left v hb]
  rcases Nat.lt_or_ge b u with hlt | hge
  · rw [hhead b hlt hb]
    simp [Nat.not_le.2 hlt]
  · rw [hrest b hge hb, hx b hge hb]
    simp [hge]

section Split

variable {s t : State} {len : Nat} {values : List Word}

/-- Bit `b` of source word `k` stands `32 k + b` bits after the old `bitLength` (R95). -/
theorem Appended.sourceWord_bit (h : Appended s t (sourceBits len values)) {k b : Nat} (hb : b < 32)
    (hk : 32 * k + b < len) : bitAt t (s.len + (32 * k + b)) = (values.getD k 0).getLsbD (31 - b) := by
  rw [h.run _ (by rwa [sourceBits_length]), sourceBits_getD values hk, sourceBit, sourceWord,
    show (32 * k + b) / 32 = k by omega, show (32 * k + b) % 32 = b by omega]

/-- The last `used` bits of source word `k` lead the word after the one it was merged into. -/
theorem Appended.carry_bit (h : Appended s t (sourceBits len values)) {k b : Nat} (hb : b < used s.len)
    (hk : k < len / 32) :
    bitAt t (32 * (wordOf s.len + (k + 1)) + b) = (shl32 (values.getD k 0) (32 - used s.len)).getLsbD (31 - b) := by
  have hu : used s.len < 32 := Nat.mod_lt _ (by norm_num)
  have hL : s.len = 32 * wordOf s.len + used s.len := (Nat.div_add_mod s.len 32).symm
  have hbit := h.sourceWord_bit (k := k) (b := 32 - used s.len + b) (by omega) (by omega)
  rw [show s.len + (32 * k + (32 - used s.len + b)) = 32 * (wordOf s.len + (k + 1)) + b by omega,
    show 31 - (32 - used s.len + b) = used s.len - 1 - b by omega] at hbit
  rw [hbit, getLsbD_shl32_left _ hu.le (by omega)]
  simp [hb]

/-- The first bits of source word `k` end the word it was merged into. -/
theorem Appended.merged_bit (h : Appended s t (sourceBits len values)) {k b : Nat} (hused : used s.len ≤ b)
    (hb : b < 32) (hk : k < len / 32) :
    bitAt t (32 * (wordOf s.len + k) + b) = (values.getD k 0).getLsbD (31 - (b - used s.len)) := by
  have hL : s.len = 32 * wordOf s.len + used s.len := (Nat.div_add_mod s.len 32).symm
  have hbit := h.sourceWord_bit (k := k) (b := b - used s.len) (by omega) (by omega)
  rwa [show s.len + (32 * k + (b - used s.len)) = 32 * (wordOf s.len + k) + b by omega] at hbit

end Split

/-- Settles O17: the bits of each source word end one word and lead the next. -/
theorem shiftMergeSplitsSourceWords : Obligations.ShiftMergeSplitsSourceWords := by
  intro s len values hinv hshift h1 hcheck
  have hu : used s.len < 32 := Nat.mod_lt _ (by norm_num)
  have hL : s.len = 32 * wordOf s.len + used s.len := (Nat.div_add_mod s.len 32).symm
  obtain ⟨t, ht, h⟩ := appendwUnder_appended legal_std hinv hcheck
  refine ⟨t, ht, fun k hk => ?split, fun hrem => ?last, fun j hj => ?below⟩
  case split =>
    refine word_eq_or_shr (fun b hlt hb => ?head) (fun b hge hb => ?blank) fun b hge hb => h.merged_bit hge hb hk
    case head =>
      cases k with
      | zero => rw [if_pos rfl, Nat.add_zero, h.rest _ (.inl (by omega)), bitAt_in_word s _ hb]
      | succ k => rw [if_neg (Nat.succ_ne_zero k), h.carry_bit hlt (by omega), Nat.add_sub_cancel]
    case blank =>
      cases k with
      | zero => rw [if_pos rfl, ← bitAt_in_word s _ hb, bitAt_eq_false_of_len_le hinv (by omega)]
      | succ k =>
        rw [if_neg (Nat.succ_ne_zero k), getLsbD_shl32_left _ hu.le hb]
        simp [Nat.not_lt.2 hge]
  case last =>
    obtain ⟨k, hk⟩ : ∃ k, len.toNat / 32 = k + 1 := ⟨len.toNat / 32 - 1, by omega⟩
    rw [hk, Nat.add_sub_cancel]
    refine word_eq_of_bitAt fun b hb => ?_
    rcases Nat.lt_or_ge b (used s.len) with hlt | hge
    · exact h.carry_bit hlt (by omega)
    · rw [h.rest _ (.inr (by rw [sourceBits_length]; omega)), bitAt_eq_false_of_len_le hinv (by omega),
        getLsbD_shl32_left _ hu.le hb]
      simp [Nat.not_lt.2 hge]
  case below =>
    refine word_eq_of_bitAt fun b hb => ?_
    rw [h.rest _ (.inl (by omega)), bitAt_in_word s j hb]

end Sys2Proof.Proofs

/-! ## The bulk append as single-word appends (R102) -/

namespace Sys2Proof.Proofs

open Sys2Proof.Machine

/-! ### The bits of a source, word by word -/

theorem runBits_halves (v : Word) : runBits 16 (shr v 16) ++ runBits 16 (v &&& 0xFFFF) = runBits 32 v := by
  have hmask : (0xFFFF : Word) = lowmask 16 := by decide
  unfold runBits
  rw [show List.range 32 = List.range (16 + 16) from rfl, List.range_add, List.map_append, List.map_map, hmask]
  refine congrArg₂ (· ++ ·) ?_ ?_
  · refine List.map_congr_left fun k hk => ?_
    rw [List.mem_range] at hk
    rw [getLsbD_shr]
    congr 1
    omega
  · refine List.map_congr_left fun k hk => ?_
    rw [List.mem_range] at hk
    have hlow : 16 - 1 - k < 16 := by omega
    rw [BitVec.getLsbD_and, getLsbD_lowmask, Function.comp_apply, show 32 - 1 - (16 + k) = 16 - 1 - k by omega]
    simp [hlow, show 16 - 1 - k < 32 by omega]

/-- The source bits are those of the first word, then those of the words after it. -/
theorem sourceBits_cons (n : Nat) (v : Word) (vs : List Word) :
    sourceBits (n + 32) (v :: vs) = runBits 32 v ++ sourceBits n vs := by
  unfold sourceBits runBits
  rw [Nat.add_comm n 32, List.range_add, List.map_append, List.map_map]
  refine congrArg₂ (· ++ ·) ?_ ?_
  · refine List.map_congr_left fun k hk => ?_
    rw [List.mem_range] at hk
    rw [show k / 32 = 0 by omega, show k % 32 = k by omega]
    rfl
  · refine List.map_congr_left fun k _ => ?_
    rw [Function.comp_apply, show (32 + k) / 32 = k / 32 + 1 by omega, show (32 + k) % 32 = k % 32 by omega]
    rfl

/-- The used bits of a partial word, shifted down to be the value of an APPEND (R102). -/
theorem runBits_shr_sourceWord {n : Nat} (hn : n < 32) (values : List Word) :
    runBits n (shr (sourceWord values 0) (32 - n)) = sourceBits n values := by
  refine List.map_congr_left fun k hk => ?_
  rw [List.mem_range] at hk
  rw [getLsbD_shr, show k / 32 = 0 by omega, show k % 32 = k by omega, show 32 - n + (n - 1 - k) = 31 - k by omega]

/-! ### The commands of R102, word by word -/

theorem groupAppends_of_lt {n : Nat} (hn : n < 32) (values : List Word) :
    groupAppends n values =
      if n = 0 then [] else [.append (BitVec.ofNat 24 n) (shr (sourceWord values 0) (32 - n))] := by
  unfold groupAppends
  rw [Nat.div_eq_of_lt hn, Nat.mod_eq_of_lt hn]
  rfl

theorem groupAppends_cons (n : Nat) (v : Word) (vs : List Word) :
    groupAppends (n + 32) (v :: vs) = halves v ++ groupAppends n vs := by
  unfold groupAppends
  rw [show (n + 32) / 32 = n / 32 + 1 by omega, show (n + 32) % 32 = n % 32 by omega, List.take_succ_cons,
    List.flatMap_cons, List.append_assoc]
  rfl

/-! ### A list of appends -/

/-- These commands, one after the other from `s`, append these bits and end in a state that meets the invariants. -/
def AppendsAll (cfg : Config) (is : List Instr) (s : State) (bits : List Bool) : Prop :=
  ∃ t, execAll cfg is s = .next t ∧ Appended s t bits ∧ Inv cfg t

theorem execAll_append {cfg : Config} {is js : List Instr} {s t : State} (h : execAll cfg is s = .next t) :
    execAll cfg (is ++ js) s = execAll cfg js t := by
  induction is generalizing s with
  | nil =>
    cases h
    rfl
  | cons i is ih =>
    obtain ⟨u, hu, hrest⟩ := execAll_cons_next h
    rw [List.cons_append, execAll, hu]
    exact ih hrest

section AppendsAll

variable {cfg : Config} {s : State}

theorem appendsAll_nil (h : Inv cfg s) : AppendsAll cfg [] s [] := ⟨s, rfl, appended_nil h, h⟩

/-- One list after another, from the length the first one leaves. -/
theorem AppendsAll.append {is js : List Instr} {bits bits' : List Bool} (hinv : Inv cfg s)
    (h : AppendsAll cfg is s bits)
    (h' : ∀ t, Inv cfg t → t.len = s.len + bits.length → AppendsAll cfg js t bits') :
    AppendsAll cfg (is ++ js) s (bits ++ bits') := by
  obtain ⟨t, ht, happended, hinvt⟩ := h
  obtain ⟨u, hu, happended', hinvu⟩ := h' t hinvt happended.len
  exact ⟨u, (execAll_append ht).trans hu, happended.trans (cap_pos_of_inv hinv) happended', hinvu⟩

/-- One APPEND that passes its tests. -/
theorem appendsAll_single (hcfg : cfg.legal) (h : Inv cfg s) {len : BitVec 24} {n : Nat} {value : Word}
    (hn : len.toNat = n) (h31 : n ≤ 31) (hv : shr value n = 0) (hmax : s.len + n ≤ cfg.maxLen) :
    AppendsAll cfg [.append len value] s (runBits n value) := by
  subst hn
  obtain ⟨t, ht, happended⟩ := appendUnder_appended hcfg h (checkAppend_none_iff.2 ⟨h31, hv, hmax⟩)
  have hexec : execUnder cfg (.append len value) s = .next t := ht
  refine ⟨t, ?_, happended, happended.inv h (by rwa [runBits_length])⟩
  rw [execAll, hexec]
  rfl

/-- A value shifted down to `n` bits passes the test of R83. -/
theorem shr_shr_eq_zero (v : Word) {m n : Nat} (h : 32 ≤ m + n) : shr (shr v m) n = 0 := by
  rw [shr_eq_zero_iff]
  intro p hp
  rw [getLsbD_shr]
  exact BitVec.getLsbD_of_ge v _ (by omega)

/-- A whole source word by its halves. -/
theorem appendsAll_halves (hcfg : cfg.legal) (h : Inv cfg s) (v : Word) (hmax : s.len + 32 ≤ cfg.maxLen) :
    AppendsAll cfg (halves v) s (runBits 32 v) := by
  have hlow : shr (v &&& 0xFFFF) 16 = 0 := by
    rw [shr_eq_zero_iff_lt, BitVec.toNat_and]
    exact Nat.and_lt_two_pow _ (by decide)
  rw [← runBits_halves v]
  refine AppendsAll.append (is := [_]) h
    (appendsAll_single hcfg h rfl (by norm_num) (shr_shr_eq_zero v le_rfl) (by omega)) fun t ht hlen => ?_
  rw [runBits_length] at hlen
  exact appendsAll_single hcfg ht rfl (by norm_num) hlow (by omega)

/-- Fewer than 32 bits: the partial final word, if there is one. -/
theorem appendsAll_groupAppends_of_lt (hcfg : cfg.legal) (h : Inv cfg s) {n : Nat} (hn : n < 32) (values : List Word)
    (hmax : s.len + n ≤ cfg.maxLen) : AppendsAll cfg (groupAppends n values) s (sourceBits n values) := by
  rw [groupAppends_of_lt hn]
  split_ifs with h0
  · subst h0
    exact appendsAll_nil h
  · rw [← runBits_shr_sourceWord hn]
    have hlen : (BitVec.ofNat 24 n).toNat = n := by rw [BitVec.toNat_ofNat, Nat.mod_eq_of_lt (by omega)]
    exact appendsAll_single hcfg h hlen (by omega) (shr_shr_eq_zero _ (by omega)) hmax

/-- The single-word appends of R102 append the source bits. -/
theorem appendsAll_groupAppends (hcfg : cfg.legal) (h : Inv cfg s) {n : Nat} {values : List Word}
    (hn : n ≤ 32 * values.length) (hmax : s.len + n ≤ cfg.maxLen) :
    AppendsAll cfg (groupAppends n values) s (sourceBits n values) := by
  induction values generalizing n s with
  | nil =>
    rw [List.length_nil] at hn
    exact appendsAll_groupAppends_of_lt hcfg h (by omega) [] hmax
  | cons v vs ih =>
    rcases Nat.lt_or_ge n 32 with hlt | hge
    · exact appendsAll_groupAppends_of_lt hcfg h hlt _ hmax
    · obtain ⟨m, rfl⟩ : ∃ m, n = m + 32 := ⟨n - 32, by omega⟩
      rw [List.length_cons] at hn
      rw [groupAppends_cons, sourceBits_cons]
      refine (appendsAll_halves hcfg h v (by omega)).append h fun t ht hlen => ih ht (by omega) ?_
      rw [runBits_length] at hlen
      omega

end AppendsAll

/-- Settles O20: both append the source bits, which tell the buffer. -/
theorem appendwEqualsSingleAppends : Obligations.AppendwEqualsSingleAppends := by
  intro s len values hinv hcheck
  obtain ⟨hlen, -, hmax⟩ := checkAppendw_none_iff.1 hcheck
  obtain ⟨t, ht, happended⟩ := appendwUnder_appended legal_std hinv hcheck
  obtain ⟨u, hu, happended', -⟩ := appendsAll_groupAppends legal_std hinv hlen hmax
  exact ⟨t, u, ht, hu, happended.toBuffer_unique happended'⟩

end Sys2Proof.Proofs
